-- ==== Sys2Proof/Word.lean ====
section
/-! DEFINITION. The word types of the core: every value in it is an unsigned word, an unsigned byte or a counter
(00_scope.md R7, R8; 10_state.md R48). Addition is `BitVec` addition, which wraps (R8); nothing here sets a flag. -/

namespace Sys2Proof

/-- `byte` of R7: 8 bits. -/
abbrev Byte := BitVec 8

/-- `u32` of R7: 32 bits, unsigned. -/
abbrev Word := BitVec 32

/-- `u64` of R7: 64 bits, unsigned. -/
abbrev DWord := BitVec 64

/-- The width of `MLEN`, the declared message length in bytes (R5, R33): 61 bits. -/
abbrev Length := BitVec 61

/-- A packed transaction `T = Wr << 40 | A << 32 | D` (30_encoding.md R70): 41 bits. -/
abbrev Packed := BitVec 41

/-- The 64-byte block (R5). -/
abbrev Block := Vector Byte 64

/-- The eight-word hash state (10_state.md R22). -/
abbrev HashState := Vector Word 8

end Sys2Proof
end

