-- ==== Sys2Proof/Machine/Bits.lean ====
section
/-! DEFINITION. The bit operations and byte-order conversions of 00_scope.md R9 and R10. -/

namespace Sys2Proof.Machine

/-- `ROTR(x, n)` of R9, for `0 < n < 32`. -/
def rotr (x : Word) (n : Nat) : Word :=
  (x >>> n) ||| (x <<< (32 - n))

/-- `SHR(x, n)` of R9. -/
def shr (x : Word) (n : Nat) : Word :=
  x >>> n

/-- `be32` of R10: four bytes as a big-endian word. -/
def be32 (b0 b1 b2 b3 : Byte) : Word :=
  (b0.setWidth 32 <<< 24) ||| (b1.setWidth 32 <<< 16) ||| (b2.setWidth 32 <<< 8) ||| b3.setWidth 32

/-- `bytes_be32` of R10: a word as four bytes, most significant first. -/
def bytesBe32 (w : Word) : List Byte :=
  [w.extractLsb' 24 8, w.extractLsb' 16 8, w.extractLsb' 8 8, w.extractLsb' 0 8]

/-- `bytes_be64` of R10: a `u64` as eight bytes, most significant first. -/
def bytesBe64 (v : DWord) : List Byte :=
  [v.extractLsb' 56 8, v.extractLsb' 48 8, v.extractLsb' 40 8, v.extractLsb' 32 8,
   v.extractLsb' 24 8, v.extractLsb' 16 8, v.extractLsb' 8 8, v.extractLsb' 0 8]

end Sys2Proof.Machine
end

