-- ==== Sys2Proof/Machine/Schedule.lean ====
section
/-! DEFINITION. The message-schedule expander (41_schedule.md). `W` is transient: it exists inside one compression only
(10_state.md R26), so it is a value here and no field of the state. -/

namespace Sys2Proof.Machine

/-- R130. -/
def sigma0 (x : Word) : Word :=
  rotr x 7 ^^^ rotr x 18 ^^^ shr x 3

/-- R131. -/
def sigma1 (x : Word) : Word :=
  rotr x 17 ^^^ rotr x 19 ^^^ shr x 10

/-- Schedule words 0 to 15: the block's bytes read as big-endian words (R132). -/
def blockWords (b : Block) : Vector Word 16 :=
  Vector.ofFn fun t => be32 b[4 * t.val] b[4 * t.val + 1] b[4 * t.val + 2] b[4 * t.val + 3]

/-- The first `16 + n` schedule words: R132, then R133 in increasing `t`. The word pushed is word `t = 16 + n`, so
`t-16`, `t-15`, `t-7` and `t-2` are the indices below. -/
def schedule (b : Block) : (n : Nat) → Vector Word (16 + n)
  | 0 => blockWords b
  | n + 1 =>
    let w := schedule b n
    w.push (w[n] + sigma0 w[n + 1] + w[n + 9] + sigma1 w[n + 14])

/-- `Expand` (R134): all 64 schedule words of a block. -/
def expand (b : Block) : Vector Word 64 :=
  schedule b 48

end Sys2Proof.Machine
end

