-- ==== Sys2Proof/Machine/Compression.lean ====
section
/-! DEFINITION. The compression function and the accumulator update (42_compression.md). The working variables and the
round index are transient (10_state.md R27, R28): values here, no fields of the state. -/

namespace Sys2Proof.Machine

/-- R150. -/
def bigSigma1 (e : Word) : Word :=
  rotr e 6 ^^^ rotr e 11 ^^^ rotr e 25

/-- R151. -/
def bigSigma0 (a : Word) : Word :=
  rotr a 2 ^^^ rotr a 13 ^^^ rotr a 22

/-- R152. -/
def ch (e f g : Word) : Word :=
  (e &&& f) ^^^ (~~~e &&& g)

/-- R153. -/
def maj (a b c : Word) : Word :=
  (a &&& b) ^^^ (a &&& c) ^^^ (b &&& c)

/-- The working variables `a..h` (10_state.md R27). -/
structure Working where
  a : Word
  b : Word
  c : Word
  d : Word
  e : Word
  f : Word
  g : Word
  h : Word
  deriving DecidableEq, Repr

/-- The working variables are loaded from the accumulator (R154). -/
def loadWorking (h : HashState) : Working :=
  { a := h[0], b := h[1], c := h[2], d := h[3], e := h[4], f := h[5], g := h[6], h := h[7] }

/-- `Round(t)` (R155) with `k = K[t]` and `w = W[t]`: one parallel update. -/
def roundStep (k w : Word) (v : Working) : Working :=
  let t1 := v.h + bigSigma1 v.e + ch v.e v.f v.g + k + w
  let t2 := bigSigma0 v.a + maj v.a v.b v.c
  { a := t1 + t2, b := v.a, c := v.b, d := v.c, e := v.d + t1, f := v.e, g := v.f, h := v.g }

/-- The working variables after the first `n` rounds, taken in order from round 0 (R156). -/
def rounds (w : Vector Word 64) (v : Working) : (n : Nat) → n ≤ 64 → Working
  | 0, _ => v
  | n + 1, hn => roundStep roundConstants[n] w[n] (rounds w v n (Nat.le_of_succ_le hn))

/-- The accumulator update (R157): each word is incremented, mod 2^32, by its final working variable. -/
def accumulate (h : HashState) (v : Working) : HashState :=
  #v[h[0] + v.a, h[1] + v.b, h[2] + v.c, h[3] + v.d, h[4] + v.e, h[5] + v.f, h[6] + v.g, h[7] + v.h]

/-- `Compress(H, B)` (R158). -/
def compress (h : HashState) (b : Block) : HashState :=
  accumulate h (rounds (expand b) (loadWorking h) 64 (Nat.le_refl 64))

end Sys2Proof.Machine
end

