-- ==== Sys2Proof/Config.lean ====
section
/-! DEFINITION. What an implementation or a platform fixes and the spec leaves OPEN (00_scope.md R5;
93_implementation_defined.md I2, I3). Both are constants with no body: no proof can see their value. The padding
threshold is NOT here: R110 makes it a constant of the core (Machine/Constants.lean). -/

namespace Sys2Proof

/-- `HOLD_MAX`: the most clock cycles one transaction is held (20_memory.md R61), OPEN and finite. The model is
untimed (70_reset_and_hazards.md R250), so no rule reads it. -/
opaque Config.holdMax : Nat

/-- `CORE_BASE`: where the platform puts the register window in its own address map (20_memory.md R52), OPEN. -/
opaque Config.coreBase : Nat

/-- The platform's address of the byte offset `a` of the window (R52). -/
def Config.systemAddress (a : Nat) : Nat :=
  Config.coreBase + a

end Sys2Proof
end

