-- ==== Sys2Proof/Machine/Bus.lean ====
section
/-! DEFINITION. What the host and the platform can present at the core's port (92_eei_decisions.md D2; 20_memory.md
R54, R55; 70_reset_and_hazards.md R240, R245). -/

namespace Sys2Proof.Machine

/-- One access the host asks for. The offset and the width are plain numbers so that the accesses R55 says must be
refused (misaligned, past the window, not 32 bits wide) can be written down at all; the core's own wires cannot carry
them (D2). -/
structure BusRequest where
  /-- `we`: a write (`Wr = 1` of R70) or a read. -/
  we : Bool
  /-- The byte offset `A` in the register window. -/
  offset : Nat
  /-- How many bits wide the access is; the core knows only 32 (R54). -/
  width : Nat
  /-- `wdata`: the data of a write, ignored on a read (R72). -/
  wdata : Word
  deriving DecidableEq, Repr

/-- One thing that reaches the core from outside: what one step takes from the port. -/
inductive PortEvent where
  /-- One host transaction (R60: one at a time, in the order issued). -/
  | access (req : BusRequest)
  /-- `rst_n` is asserted, perhaps while the transaction `inFlight` is in progress, which is then abandoned (R245). -/
  | powerOnReset (inFlight : Option BusRequest)
  deriving DecidableEq, Repr

/-- What the port returned for the last completed transaction: the model's own field, since R20 gives the core no
register behind `rdata` (log entry 2). -/
inductive Response where
  /-- No transaction has completed since power-on reset. -/
  | none
  /-- A write completed: the bus returns nothing but `ready` (D2 has no error response). -/
  | writeDone
  /-- A read completed and returned `rd`, the `RD` of R72. -/
  | readData (rd : Word)
  deriving DecidableEq, Repr

end Sys2Proof.Machine
end

