-- ==== Sys2Proof/Syntax.lean ====
section
/-! DEFINITION. The instructions: one constructor per row of spec/opcode_table.json (30_encoding.md R86). An
instruction is one host bus transaction (R70). A write carries its data word `d`; a read carries none, since the `D` of
a read is ignored (R72). `i` is the digest index `A[4:2]` (R74); `x` is `A[5:2]`, the slot inside a reserved group. -/

namespace Sys2Proof

/-- The 27 rows of R86. -/
inductive Instr where
  /-- `CMD.NOP` (43_control.md R182). -/
  | cmdNop
  /-- `CMD.RESET` (R183). -/
  | cmdReset
  /-- `CMD.FINAL` (R184). -/
  | cmdFinal
  /-- `CMD.RSV`: a `CMD` word that is none of the three commands (R185). -/
  | cmdRsv (d : Word)
  /-- `WR.STATUS` (R195). -/
  | wrStatus (d : Word)
  /-- `WR.MLEN_LO` (40_framer.md R101). -/
  | wrMlenLo (d : Word)
  /-- `WR.MLEN_HI` (R102). -/
  | wrMlenHi (d : Word)
  /-- `WR.BYTECNT_LO` (R195). -/
  | wrBytecntLo (d : Word)
  /-- `WR.BYTECNT_HI` (R195). -/
  | wrBytecntHi (d : Word)
  /-- `PUSHW`: a write to `DIN_W` (R107). -/
  | pushw (d : Word)
  /-- `PUSHB`: a write to `DIN_B` (R106). -/
  | pushb (d : Word)
  /-- `WR.DIGEST` (R195). -/
  | wrDigest (i : BitVec 3) (d : Word)
  /-- `WR.RSV.40`: offsets 0x40 to 0x7C (R196). -/
  | wrRsv40 (x : BitVec 4) (d : Word)
  /-- `WR.RSV.80`: offsets 0x80 to 0xBC (R196). -/
  | wrRsv80 (x : BitVec 4) (d : Word)
  /-- `WR.RSV.C0`: offsets 0xC0 to 0xFC (R196). -/
  | wrRsvC0 (x : BitVec 4) (d : Word)
  /-- `RD.CMD` (R193). -/
  | rdCmd
  /-- `RD.STATUS` (R187). -/
  | rdStatus
  /-- `RD.MLEN_LO` (R188). -/
  | rdMlenLo
  /-- `RD.MLEN_HI` (R189). -/
  | rdMlenHi
  /-- `RD.BYTECNT_LO` (R190). -/
  | rdBytecntLo
  /-- `RD.BYTECNT_HI` (R191). -/
  | rdBytecntHi
  /-- `RD.DIN_W` (R193). -/
  | rdDinW
  /-- `RD.DIN_B` (R193). -/
  | rdDinB
  /-- `RD.DIGEST` (R192). -/
  | rdDigest (i : BitVec 3)
  /-- `RD.RSV.40` (R194). -/
  | rdRsv40 (x : BitVec 4)
  /-- `RD.RSV.80` (R194). -/
  | rdRsv80 (x : BitVec 4)
  /-- `RD.RSV.C0` (R194). -/
  | rdRsvC0 (x : BitVec 4)
  deriving DecidableEq, Repr

end Sys2Proof
end

