-- ==== Sys2Proof/WellFormed.lean ====
section
/-! DEFINITION. Which instructions and which accesses are well formed. The operand fields of `Instr` have exactly the
widths of R86, so the one check left is that `CMD.RSV` carries no valid command word (30_encoding.md R77). -/

namespace Sys2Proof

/-- R77: a command word is valid if and only if `RSV = D[31:8] = 0` and `OP = D[7:0]` is 0x00, 0x01 or 0x02. -/
def validCommandWord (d : Word) : Bool :=
  d.extractLsb' 8 24 == 0#24 &&
    (d.extractLsb' 0 8 == 0x00#8 || d.extractLsb' 0 8 == 0x01#8 || d.extractLsb' 0 8 == 0x02#8)

/-- An instruction is well formed when its operands select its own row of R86. -/
def Instr.wf : Instr → Bool
  | .cmdNop => true
  | .cmdReset => true
  | .cmdFinal => true
  | .cmdRsv d => !validCommandWord d
  | .wrStatus _ => true
  | .wrMlenLo _ => true
  | .wrMlenHi _ => true
  | .wrBytecntLo _ => true
  | .wrBytecntHi _ => true
  | .pushw _ => true
  | .pushb _ => true
  | .wrDigest _ _ => true
  | .wrRsv40 _ _ => true
  | .wrRsv80 _ _ => true
  | .wrRsvC0 _ _ => true
  | .rdCmd => true
  | .rdStatus => true
  | .rdMlenLo => true
  | .rdMlenHi => true
  | .rdBytecntLo => true
  | .rdBytecntHi => true
  | .rdDinW => true
  | .rdDinB => true
  | .rdDigest _ => true
  | .rdRsv40 _ => true
  | .rdRsv80 _ => true
  | .rdRsvC0 _ => true

/-- An access the core's port can carry (20_memory.md R54, R55): 32 bits wide, inside the 256-byte window, aligned. -/
def Machine.BusRequest.wf (r : Machine.BusRequest) : Bool :=
  r.width == 32 && decide (r.offset < 256) && r.offset % 4 == 0

end Sys2Proof
end

