-- ==== Sys2Proof/Decode.lean ====
section
/-! DEFINITION. The decoder of 30_encoding.md R87, total on every packed transaction and on every access a host can
ask for, and after it the encoder and the opcode table, written from the same rows of R86. -/

namespace Sys2Proof

/-- Why an access spells no transaction. -/
inductive DecodeError where
  /-- `A[1:0] != 00` (R71). -/
  | misalignedOffset
  /-- The offset is above 0xFF (20_memory.md R55). -/
  | offsetOutOfWindow
  /-- The access is not 32 bits wide (R55). -/
  | notWordWide
  deriving DecidableEq, Repr

/-- R70: `T = Wr << 40 | A << 32 | D`. -/
def pack (wr : Bool) (a : BitVec 8) (d : Word) : Packed :=
  ((BitVec.ofBool wr).setWidth 41 <<< 40) ||| (a.setWidth 41 <<< 32) ||| d.setWidth 41

/-- `T[40]` (R70). -/
def wrField (t : Packed) : Bool :=
  t.getLsbD 40

/-- `A = T[39:32]` (R70). -/
def addrField (t : Packed) : BitVec 8 :=
  t.extractLsb' 32 8

/-- `D = T[31:0]` (R70). -/
def dataField (t : Packed) : Word :=
  t.extractLsb' 0 32

/-- The command word of a write to `CMD` (R75 to R77): the three valid words first, any other word is reserved. -/
def decodeCommand (d : Word) : Instr :=
  if d = 0x0#32 then .cmdNop
  else if d = 0x1#32 then .cmdReset
  else if d = 0x2#32 then .cmdFinal
  else .cmdRsv d

/-- The `Wr = 1` half of R87, for an aligned `a`. -/
def decodeWrite (a : BitVec 8) (d : Word) : Instr :=
  if a = 0x00#8 then decodeCommand d
  else if a = 0x04#8 then .wrStatus d
  else if a = 0x08#8 then .wrMlenLo d
  else if a = 0x0C#8 then .wrMlenHi d
  else if a = 0x10#8 then .wrBytecntLo d
  else if a = 0x14#8 then .wrBytecntHi d
  else if a = 0x18#8 then .pushw d
  else if a = 0x1C#8 then .pushb d
  else if a.extractLsb' 5 3 = 0b001#3 then .wrDigest (a.extractLsb' 2 3) d
  else if a.extractLsb' 6 2 = 0b01#2 then .wrRsv40 (a.extractLsb' 2 4) d
  else if a.extractLsb' 6 2 = 0b10#2 then .wrRsv80 (a.extractLsb' 2 4) d
  else .wrRsvC0 (a.extractLsb' 2 4) d

/-- The `Wr = 0` half of R87, for an aligned `a`; the data field is not looked at (R72). -/
def decodeRead (a : BitVec 8) : Instr :=
  if a = 0x00#8 then .rdCmd
  else if a = 0x04#8 then .rdStatus
  else if a = 0x08#8 then .rdMlenLo
  else if a = 0x0C#8 then .rdMlenHi
  else if a = 0x10#8 then .rdBytecntLo
  else if a = 0x14#8 then .rdBytecntHi
  else if a = 0x18#8 then .rdDinW
  else if a = 0x1C#8 then .rdDinB
  else if a.extractLsb' 5 3 = 0b001#3 then .rdDigest (a.extractLsb' 2 3)
  else if a.extractLsb' 6 2 = 0b01#2 then .rdRsv40 (a.extractLsb' 2 4)
  else if a.extractLsb' 6 2 = 0b10#2 then .rdRsv80 (a.extractLsb' 2 4)
  else .rdRsvC0 (a.extractLsb' 2 4)

/-- The decoder of R87. -/
def decode (t : Packed) : Except DecodeError Instr :=
  if (addrField t).extractLsb' 0 2 ≠ 0b00#2 then .error .misalignedOffset
  else if wrField t then .ok (decodeWrite (addrField t) (dataField t))
  else .ok (decodeRead (addrField t))

/-- Decoding an access as the host asks for it: R55's three refusals, then R87. -/
def decodeRequest (r : Machine.BusRequest) : Except DecodeError Instr :=
  if r.width ≠ 32 then .error .notWordWide
  else if 256 ≤ r.offset then .error .offsetOutOfWindow
  else decode (pack r.we (BitVec.ofNat 8 r.offset) r.wdata)

/-- The access whose packed form is the number `w`: `D` its low 32 bits, `Wr` its bit 40 and `A` the eight bits between.
A number of more than 41 bits spells no transaction: its offset is then one past the window. -/
def requestOfNat (w : Nat) : Machine.BusRequest :=
  { we := w.testBit 40
    offset := if w < 2 ^ 41 then w / 2 ^ 32 % 256 else 256
    width := 32
    wdata := BitVec.ofNat 32 w }

/-- What the decoder reads from the `nbits` low bits of `w`, numbered as spec/opcode_table.json numbers a row's bits (R70:
bit 40 is `Wr`, bits 39 to 32 are `A`, bits 31 to 0 are `D`). -/
def decodeTableWord (nbits w : Nat) : Option Instr :=
  match decodeRequest (requestOfNat (w % 2 ^ nbits)) with
  | .ok i => some i
  | .error _ => none

/-- The packed transaction of an instruction, from the encoding strings of R86. A read's `D` is 0 (R72). -/
def encode : Instr → Packed
  | .cmdNop => pack true 0x00#8 0x0#32
  | .cmdReset => pack true 0x00#8 0x1#32
  | .cmdFinal => pack true 0x00#8 0x2#32
  | .cmdRsv d => pack true 0x00#8 d
  | .wrStatus d => pack true 0x04#8 d
  | .wrMlenLo d => pack true 0x08#8 d
  | .wrMlenHi d => pack true 0x0C#8 d
  | .wrBytecntLo d => pack true 0x10#8 d
  | .wrBytecntHi d => pack true 0x14#8 d
  | .pushw d => pack true 0x18#8 d
  | .pushb d => pack true 0x1C#8 d
  | .wrDigest i d => pack true (0x20#8 ||| i.setWidth 8 <<< 2) d
  | .wrRsv40 x d => pack true (0x40#8 ||| x.setWidth 8 <<< 2) d
  | .wrRsv80 x d => pack true (0x80#8 ||| x.setWidth 8 <<< 2) d
  | .wrRsvC0 x d => pack true (0xC0#8 ||| x.setWidth 8 <<< 2) d
  | .rdCmd => pack false 0x00#8 0x0#32
  | .rdStatus => pack false 0x04#8 0x0#32
  | .rdMlenLo => pack false 0x08#8 0x0#32
  | .rdMlenHi => pack false 0x0C#8 0x0#32
  | .rdBytecntLo => pack false 0x10#8 0x0#32
  | .rdBytecntHi => pack false 0x14#8 0x0#32
  | .rdDinW => pack false 0x18#8 0x0#32
  | .rdDinB => pack false 0x1C#8 0x0#32
  | .rdDigest i => pack false (0x20#8 ||| i.setWidth 8 <<< 2) 0x0#32
  | .rdRsv40 x => pack false (0x40#8 ||| x.setWidth 8 <<< 2) 0x0#32
  | .rdRsv80 x => pack false (0x80#8 ||| x.setWidth 8 <<< 2) 0x0#32
  | .rdRsvC0 x => pack false (0xC0#8 ||| x.setWidth 8 <<< 2) 0x0#32

/-- The canonical form of a packed transaction (R72): a read's `D` is 0, a write is as it is. -/
def canonical (t : Packed) : Packed :=
  if wrField t then t else pack false (addrField t) 0x0#32

/-- The access a host makes to issue the instruction `i` (R70, D2). -/
def Instr.request (i : Instr) : Machine.BusRequest :=
  { we := wrField (encode i)
    offset := (addrField (encode i)).toNat
    width := 32
    wdata := dataField (encode i) }

/-- One row of R86: the mnemonic, and the match and mask over the packed transaction. -/
structure TableRow where
  mnemonic : String
  pattern : Packed
  mask : Packed
  deriving DecidableEq, Repr

/-- The row of an instruction, as R86 prints it. -/
def tableRow : Instr → TableRow
  | .cmdNop => ⟨"CMD.NOP", 0x10000000000#41, 0x1ffffffffff#41⟩
  | .cmdReset => ⟨"CMD.RESET", 0x10000000001#41, 0x1ffffffffff#41⟩
  | .cmdFinal => ⟨"CMD.FINAL", 0x10000000002#41, 0x1ffffffffff#41⟩
  | .cmdRsv _ => ⟨"CMD.RSV", 0x10000000000#41, 0x1ff00000000#41⟩
  | .wrStatus _ => ⟨"WR.STATUS", 0x10400000000#41, 0x1ff00000000#41⟩
  | .wrMlenLo _ => ⟨"WR.MLEN_LO", 0x10800000000#41, 0x1ff00000000#41⟩
  | .wrMlenHi _ => ⟨"WR.MLEN_HI", 0x10c00000000#41, 0x1ff00000000#41⟩
  | .wrBytecntLo _ => ⟨"WR.BYTECNT_LO", 0x11000000000#41, 0x1ff00000000#41⟩
  | .wrBytecntHi _ => ⟨"WR.BYTECNT_HI", 0x11400000000#41, 0x1ff00000000#41⟩
  | .pushw _ => ⟨"PUSHW", 0x11800000000#41, 0x1ff00000000#41⟩
  | .pushb _ => ⟨"PUSHB", 0x11c00000000#41, 0x1ff00000000#41⟩
  | .wrDigest _ _ => ⟨"WR.DIGEST", 0x12000000000#41, 0x1e300000000#41⟩
  | .wrRsv40 _ _ => ⟨"WR.RSV.40", 0x14000000000#41, 0x1c300000000#41⟩
  | .wrRsv80 _ _ => ⟨"WR.RSV.80", 0x18000000000#41, 0x1c300000000#41⟩
  | .wrRsvC0 _ _ => ⟨"WR.RSV.C0", 0x1c000000000#41, 0x1c300000000#41⟩
  | .rdCmd => ⟨"RD.CMD", 0x00000000000#41, 0x1ff00000000#41⟩
  | .rdStatus => ⟨"RD.STATUS", 0x00400000000#41, 0x1ff00000000#41⟩
  | .rdMlenLo => ⟨"RD.MLEN_LO", 0x00800000000#41, 0x1ff00000000#41⟩
  | .rdMlenHi => ⟨"RD.MLEN_HI", 0x00c00000000#41, 0x1ff00000000#41⟩
  | .rdBytecntLo => ⟨"RD.BYTECNT_LO", 0x01000000000#41, 0x1ff00000000#41⟩
  | .rdBytecntHi => ⟨"RD.BYTECNT_HI", 0x01400000000#41, 0x1ff00000000#41⟩
  | .rdDinW => ⟨"RD.DIN_W", 0x01800000000#41, 0x1ff00000000#41⟩
  | .rdDinB => ⟨"RD.DIN_B", 0x01c00000000#41, 0x1ff00000000#41⟩
  | .rdDigest _ => ⟨"RD.DIGEST", 0x02000000000#41, 0x1e300000000#41⟩
  | .rdRsv40 _ => ⟨"RD.RSV.40", 0x04000000000#41, 0x1c300000000#41⟩
  | .rdRsv80 _ => ⟨"RD.RSV.80", 0x08000000000#41, 0x1c300000000#41⟩
  | .rdRsvC0 _ => ⟨"RD.RSV.C0", 0x0c000000000#41, 0x1c300000000#41⟩

/-- A packed transaction is in a row when it agrees with the row's pattern on the row's mask (R86). -/
abbrev TableRow.covers (r : TableRow) (t : Packed) : Prop :=
  t &&& r.mask = r.pattern

/-- Whether a row is one of the three valid command words, which R86 says are tried first. -/
def TableRow.fullMask (r : TableRow) : Bool :=
  r.mask == 0x1ffffffffff#41

end Sys2Proof
end

