-- ==== Sys2Proof/Machine/State.lean ====
section
/-! DEFINITION. The state of the machine, the ways a step can stop, and the state after reset. `Regs` is the core's
persistent state, exactly the table of 10_state.md R20; `State` puts the host's port beside it. -/

namespace Sys2Proof.Machine

/-- `STATE` (10_state.md R35). Value 3 is never produced, and the spec lets a model leave it out of the type
(92_eei_decisions.md D25). -/
inductive Phase where
  /-- Fresh or just reset. -/
  | idle
  /-- At least one push has been accepted. -/
  | absorbing
  /-- The digest is available. -/
  | finalized
  deriving DecidableEq, Repr

/-- The causes of a protocol error (60_exceptions.md R211, codes 1 to 5). Code 0 is "no error recorded" and is no
cause. -/
inductive ErrCause where
  /-- A reserved command word. -/
  | badCmd
  /-- A push past the declared length. -/
  | overrun
  /-- `CMD.FINAL` with fewer bytes pushed than declared. -/
  | lenMismatch
  /-- A push or `CMD.FINAL` in Finalized. -/
  | notAccepting
  /-- A write to `MLEN_LO` or `MLEN_HI` outside Idle. -/
  | mlenLocked
  deriving DecidableEq, Repr

/-- The core's persistent state: the seven rows of R20. -/
structure Regs where
  /-- `H[0..7]`, the running accumulator (R22, R23). -/
  h : HashState
  /-- `STATE` (R35). -/
  phase : Phase
  /-- `ERR` (R36). -/
  err : Bool
  /-- `ERRCODE` (R36, R37), four bits. -/
  errcode : BitVec 4
  /-- `MLEN`, the declared length in bytes (R33). -/
  mlen : Length
  /-- `BYTECNT`, the message bytes accepted since the last reset (R32). -/
  bytecnt : DWord
  /-- `BUF[0..63]`, the block buffer (R30). -/
  buf : Block
  deriving DecidableEq, Repr

/-- The whole machine: the core's registers and the host's port. -/
structure State where
  /-- The persistent state of R20. -/
  regs : Regs
  /-- What the port returned for the last transaction (the model's field, log entry 2). -/
  resp : Response
  /-- What the host and the platform present next, in the order issued (20_memory.md R60; log entry 1). -/
  pending : List PortEvent
  deriving DecidableEq, Repr

/-- Why the machine stops with a fault. There is no constructor: the core never halts, a protocol error is recorded and
the machine goes on (60_exceptions.md R210), and the computation raises nothing (R220). Safe. -/
inductive Fault where
  deriving DecidableEq, Repr

/-- Why a step is refused. -/
inductive Refusal where
  /-- An instruction that has no meaning yet; raised by an arm of `exec` only, and none raises it. Safe. -/
  | notModelled (mnemonic : String)
  /-- The access at the head of the port spells no transaction, so there is no step (20_memory.md R55, 30_encoding.md
  R71); raised by `step` alone. Safe: the core's wires cannot carry such an access. -/
  | noTransaction (why : DecodeError)
  deriving DecidableEq, Repr

/-- The reset table of 10_state.md R46. -/
def Regs.reset : Regs :=
  { h := iv
    phase := .idle
    err := false
    errcode := 0#4
    mlen := 0#61
    bytecnt := 0#64
    buf := Vector.replicate 64 0x00#8 }

/-- The machine right after power-on reset (70_reset_and_hazards.md R240): the table of R46, nothing returned yet and
nothing presented at the port (R242). -/
def State.reset : State :=
  { regs := Regs.reset, resp := .none, pending := [] }

end Sys2Proof.Machine
end

