-- ==== Sys2Proof/Machine/Flags.lean ====
section
/-! DEFINITION. The fields of `STATUS` and the word it reads (10_state.md R35 to R37; 60_exceptions.md R211). The core
has no other flags (10_state.md R44). -/

namespace Sys2Proof.Machine

/-- The two bits of `STATE` (R35). -/
def phaseCode : Phase → BitVec 2
  | .idle => 0#2
  | .absorbing => 1#2
  | .finalized => 2#2

/-- The four bits of `ERRCODE` for a recorded cause (R211). -/
def errCauseCode : ErrCause → BitVec 4
  | .badCmd => 1#4
  | .overrun => 2#4
  | .lenMismatch => 3#4
  | .notAccepting => 4#4
  | .mlenLocked => 5#4

/-- `STATUS = zext_32(ERRCODE) << 4 | zext_32(ERR) << 2 | zext_32(STATE)` (R37). -/
def statusWord (r : Regs) : Word :=
  (r.errcode.setWidth 32 <<< 4) ||| ((BitVec.ofBool r.err).setWidth 32 <<< 2) ||| (phaseCode r.phase).setWidth 32

end Sys2Proof.Machine
end

