-- ==== Sys2Proof/Machine/Operands.lean ====
section
/-! DEFINITION. The operand forms of the writes (30_encoding.md R78 to R81; 20_memory.md R56) and the register halves of
the two long counters (10_state.md R38, R39). -/

namespace Sys2Proof.Machine

/-- The message byte of a `DIN_B` write (R79): `D[7:0]`; `D[31:8]` is not looked at. -/
def pushBytesB (d : Word) : List Byte :=
  [d.extractLsb' 0 8]

/-- The four message bytes of a `DIN_W` write, `D[31:24]` first (R80, R56). -/
def pushBytesW (d : Word) : List Byte :=
  bytesBe32 d

/-- `MLEN` after a write of `d` to `MLEN_LO`: all 32 bits become `MLEN[31:0]` (R81). -/
def withMlenLo (m : Length) (d : Word) : Length :=
  ((m.extractLsb' 32 29).setWidth 61 <<< 32) ||| d.setWidth 61

/-- `MLEN` after a write of `d` to `MLEN_HI`: `D[28:0]` becomes `MLEN[60:32]`, `D[31:29]` is ignored (R78). -/
def withMlenHi (m : Length) (d : Word) : Length :=
  ((d.extractLsb' 0 29).setWidth 61 <<< 32) ||| (m.extractLsb' 0 32).setWidth 61

/-- `MLEN_LO` reads `MLEN[31:0]` (10_state.md R38). -/
def mlenLo (m : Length) : Word :=
  m.extractLsb' 0 32

/-- `MLEN_HI` reads `MLEN[60:32]`, its bits 31:29 zero (R38). -/
def mlenHi (m : Length) : Word :=
  (m.extractLsb' 32 29).setWidth 32

/-- `BYTECNT_LO` reads `BYTECNT[31:0]` (R39). -/
def bytecntLo (n : DWord) : Word :=
  n.extractLsb' 0 32

/-- `BYTECNT_HI` reads `BYTECNT[63:32]` (R39). -/
def bytecntHi (n : DWord) : Word :=
  n.extractLsb' 32 32

/-- `BitLength` (10_state.md R34, 40_framer.md R115): `zext_64(MLEN) * 8`. -/
def bitLength (m : Length) : DWord :=
  m.setWidth 64 * 8#64

end Sys2Proof.Machine
end

