-- ==== Sys2Proof/Machine/Ops.lean ====
section
/-! DEFINITION. The operations the meanings share: recording a protocol error and returning from it, the admission
checks, storing a message byte, compressing the buffer, padding, and completing a transaction at the port. -/

namespace Sys2Proof.Machine

/-- `raise Error(code)` (60_exceptions.md R212): the first error is recorded and nothing else changes (R218). This is
all the core has in place of taking an exception (R210). -/
def recordError (c : ErrCause) (r : Regs) : Regs :=
  if r.err then r else { r with err := true, errcode := errCauseCode c }

/-- What `CMD.RESET` leaves (43_control.md R183): every value of the reset table of 10_state.md R46. It is the only way
back from a recorded error (60_exceptions.md R218). -/
def resetRegs (_ : Regs) : Regs :=
  { h := iv
    phase := .idle
    err := false
    errcode := 0#4
    mlen := 0#61
    bytecnt := 0#64
    buf := Vector.replicate 64 0x00#8 }

/-- The answer of a transaction's checks (60_exceptions.md R214). -/
inductive Admission where
  /-- The transaction has its effect. -/
  | accept
  /-- It is refused and the cause is recorded. -/
  | refuse (c : ErrCause)
  /-- `ERR = 1`: it is ignored and raises nothing (R213). -/
  | frozen
  deriving DecidableEq, Repr

/-- What a checked transaction leaves, given its effect `f` when accepted. -/
def admitted (a : Admission) (f : Regs → Regs) (r : Regs) : Regs :=
  match a with
  | .accept => f r
  | .refuse c => recordError c r
  | .frozen => r

/-- `PushAdmit(n)` (40_framer.md R103). `BYTECNT + n` is compared as a number, without wrapping. -/
def pushAdmit (n : Nat) (r : Regs) : Admission :=
  if r.err then .frozen
  else if r.phase = .finalized then .refuse .notAccepting
  else if r.mlen.toNat < r.bytecnt.toNat + n then .refuse .overrun
  else .accept

/-- The checks of a write to `MLEN_LO` or `MLEN_HI` (R101, R102). -/
def mlenAdmit (r : Regs) : Admission :=
  if r.err then .frozen
  else if r.phase ≠ .idle then .refuse .mlenLocked
  else .accept

/-- The checks of `CMD.FINAL` (43_control.md R184). -/
def finalAdmit (r : Regs) : Admission :=
  if r.err then .frozen
  else if r.phase = .finalized then .refuse .notAccepting
  else if r.bytecnt.toNat ≠ r.mlen.toNat then .refuse .lenMismatch
  else .accept

/-- The fill level of the buffer: `BYTECNT mod 64` (10_state.md R45). -/
def fill (r : Regs) : Nat :=
  r.bytecnt.toNat % 64

/-- The fill level is a position of the buffer. -/
theorem fill_lt (r : Regs) : fill r < 64 :=
  Nat.mod_lt _ (by decide)

/-- The cleared buffer. -/
def zeroBlock : Block :=
  Vector.replicate 64 0x00#8

/-- `CompressBuffer()` (R105): fold the block into `H`, then clear the buffer. -/
def compressBuffer (r : Regs) : Regs :=
  { r with h := compress r.h r.buf, buf := zeroBlock }

/-- Store one byte at the fill level and count it: the first two lines of `Append` (R104). -/
def storeByte (b : Byte) (r : Regs) : Regs :=
  { r with buf := r.buf.set (fill r) b (fill_lt r), bytecnt := r.bytecnt + 1#64 }

/-- `Append(b)` (R104): the block is compressed as soon as it fills. -/
def append (b : Byte) (r : Regs) : Regs :=
  if fill (storeByte b r) = 0 then compressBuffer (storeByte b r) else storeByte b r

/-- Append the bytes in order and be Absorbing: the accepted case of R106 and R107. -/
def absorb (bs : List Byte) (r : Regs) : Regs :=
  { bs.foldl (fun r b => append b r) r with phase := .absorbing }

/-- A push of the bytes `bs`, all or nothing (R103, R107). -/
def push (bs : List Byte) (r : Regs) : Regs :=
  admitted (pushAdmit bs.length r) (absorb bs) r

/-- The pad byte at the position after the last message byte (R109, R116). -/
def placePad (r : Regs) : Regs :=
  { r with buf := r.buf.set (fill r) 0x80#8 (fill_lt r) }

/-- The block with the length field in its last eight bytes, most significant first (R109, 20_memory.md R57). -/
def withLengthField (b : Block) (m : Length) : Block :=
  (((((((b.set 56 ((bitLength m).extractLsb' 56 8)).set 57 ((bitLength m).extractLsb' 48 8)).set 58
    ((bitLength m).extractLsb' 40 8)).set 59 ((bitLength m).extractLsb' 32 8)).set 60
    ((bitLength m).extractLsb' 24 8)).set 61 ((bitLength m).extractLsb' 16 8)).set 62
    ((bitLength m).extractLsb' 8 8)).set 63 ((bitLength m).extractLsb' 0 8)

/-- The length field stored into the buffer (R109). -/
def placeLength (r : Regs) : Regs :=
  { r with buf := withLengthField r.buf r.mlen }

/-- `Pad()` (R109): the pad byte, one more compression when no room is left for the length, the length, the final
compression. -/
def pad (r : Regs) : Regs :=
  if padThreshold ≤ fill r then compressBuffer (placeLength (compressBuffer (placePad r)))
  else compressBuffer (placeLength (placePad r))

/-- The accepted case of `CMD.FINAL` (43_control.md R184). -/
def finalize (r : Regs) : Regs :=
  { pad r with phase := .finalized }

/-- What a read of `DIGEST0..7` returns (R192): `H[i]` in Finalized, else 0. -/
def digestWord (i : BitVec 3) (r : Regs) : Word :=
  if r.phase = .finalized then r.h[i.toNat]'(i.isLt) else 0#32

/-- The 32-byte digest (R186): the eight accumulator words as big-endian bytes, in order. -/
def digestBytes (h : HashState) : List Byte :=
  h.toList.flatMap bytesBe32

/-- A write transaction completes (20_memory.md R60) and leaves the registers `r`. -/
def State.finishWrite (s : State) (r : Regs) : State :=
  { s with regs := r, resp := .writeDone }

/-- A read transaction completes and returns `v`; reads have no side effects (R59). -/
def State.finishRead (s : State) (v : Word) : State :=
  { s with resp := .readData v }

/-- What power-on reset leaves, with the rest of the port's events still to come (70_reset_and_hazards.md R240, R245). -/
def State.powerOnReset (s : State) : State :=
  { State.reset with pending := s.pending }

/-- What the core makes of the access at the head of its port: an instruction, or no step at all (20_memory.md R55). -/
def acceptRequest (r : BusRequest) : Except Refusal Instr :=
  match decodeRequest r with
  | .ok i => .ok i
  | .error e => .error (.noTransaction e)

/-- The access `r` presented as the next thing at the port. -/
def State.present (s : State) (r : BusRequest) : State :=
  { s with pending := .access r :: s.pending }

end Sys2Proof.Machine
end

