-- ==== Sys2Proof/Machine/Control.lean ====
section
/-! DEFINITION. The meanings of the commands (43_control.md R181 to R185). -/

namespace Sys2Proof.Machine

/-- CMD.NOP (R182): nothing, whether or not `ERR = 1`. -/
def execCmdNop (s : State) : Host.Outcome State Fault Refusal :=
  .next (s.finishWrite s.regs)

/-- CMD.RESET (R183): accepted in every state and also while `ERR = 1`. -/
def execCmdReset (s : State) : Host.Outcome State Fault Refusal :=
  .next (s.finishWrite (resetRegs s.regs))

/-- CMD.FINAL (R184). -/
def execCmdFinal (s : State) : Host.Outcome State Fault Refusal :=
  .next (s.finishWrite (admitted (finalAdmit s.regs) finalize s.regs))

/-- CMD.RSV (R185): `BAD_CMD`, unless an error is recorded already; the word itself is not recorded (R211). -/
def execCmdRsv (_ : Word) (s : State) : Host.Outcome State Fault Refusal :=
  .next (s.finishWrite (recordError .badCmd s.regs))

end Sys2Proof.Machine
end

