-- ==== Sys2Proof/Machine/Framer.lean ====
section
/-! DEFINITION. The meanings of the length writes and the data pushes (40_framer.md R101, R102, R106, R107). -/

namespace Sys2Proof.Machine

/-- WR.MLEN_LO (R101). -/
def execWrMlenLo (d : Word) (s : State) : Host.Outcome State Fault Refusal :=
  .next (s.finishWrite
    (admitted (mlenAdmit s.regs) (fun r => { r with mlen := withMlenLo r.mlen d }) s.regs))

/-- WR.MLEN_HI (R102). -/
def execWrMlenHi (d : Word) (s : State) : Host.Outcome State Fault Refusal :=
  .next (s.finishWrite
    (admitted (mlenAdmit s.regs) (fun r => { r with mlen := withMlenHi r.mlen d }) s.regs))

/-- PUSHB (R106). -/
def execPushb (d : Word) (s : State) : Host.Outcome State Fault Refusal :=
  .next (s.finishWrite (push (pushBytesB d) s.regs))

/-- PUSHW (R107). -/
def execPushw (d : Word) (s : State) : Host.Outcome State Fault Refusal :=
  .next (s.finishWrite (push (pushBytesW d) s.regs))

end Sys2Proof.Machine
end

