-- ==== Sys2Proof/Machine/IgnoredWrites.lean ====
section
/-! DEFINITION. The meanings of the ignored writes (43_control.md R195, R196): the transaction completes, nothing is
written and no error is recorded. -/

namespace Sys2Proof.Machine

/-- WR.STATUS (R195): in particular `ERR` is not cleared. -/
def execWrStatus (_ : Word) (s : State) : Host.Outcome State Fault Refusal :=
  .next (s.finishWrite s.regs)

/-- WR.BYTECNT_LO (R195). -/
def execWrBytecntLo (_ : Word) (s : State) : Host.Outcome State Fault Refusal :=
  .next (s.finishWrite s.regs)

/-- WR.BYTECNT_HI (R195). -/
def execWrBytecntHi (_ : Word) (s : State) : Host.Outcome State Fault Refusal :=
  .next (s.finishWrite s.regs)

/-- WR.DIGEST (R195): in particular `H` is not changed. -/
def execWrDigest (_ : BitVec 3) (_ : Word) (s : State) : Host.Outcome State Fault Refusal :=
  .next (s.finishWrite s.regs)

/-- WR.RSV.40 (R196). -/
def execWrRsv40 (_ : BitVec 4) (_ : Word) (s : State) : Host.Outcome State Fault Refusal :=
  .next (s.finishWrite s.regs)

/-- WR.RSV.80 (R196). -/
def execWrRsv80 (_ : BitVec 4) (_ : Word) (s : State) : Host.Outcome State Fault Refusal :=
  .next (s.finishWrite s.regs)

/-- WR.RSV.C0 (R196). -/
def execWrRsvC0 (_ : BitVec 4) (_ : Word) (s : State) : Host.Outcome State Fault Refusal :=
  .next (s.finishWrite s.regs)

end Sys2Proof.Machine
end

