-- ==== Sys2Proof/Machine/Reads.lean ====
section
/-! DEFINITION. The meanings of the register reads (43_control.md R187 to R194). None has a side effect
(20_memory.md R59), and each works whatever `ERR` is (60_exceptions.md R213). -/

namespace Sys2Proof.Machine

/-- RD.STATUS (R187). -/
def execRdStatus (s : State) : Host.Outcome State Fault Refusal :=
  .next (s.finishRead (statusWord s.regs))

/-- RD.MLEN_LO (R188). -/
def execRdMlenLo (s : State) : Host.Outcome State Fault Refusal :=
  .next (s.finishRead (mlenLo s.regs.mlen))

/-- RD.MLEN_HI (R189). -/
def execRdMlenHi (s : State) : Host.Outcome State Fault Refusal :=
  .next (s.finishRead (mlenHi s.regs.mlen))

/-- RD.BYTECNT_LO (R190). -/
def execRdBytecntLo (s : State) : Host.Outcome State Fault Refusal :=
  .next (s.finishRead (bytecntLo s.regs.bytecnt))

/-- RD.BYTECNT_HI (R191). -/
def execRdBytecntHi (s : State) : Host.Outcome State Fault Refusal :=
  .next (s.finishRead (bytecntHi s.regs.bytecnt))

/-- RD.DIGEST (R192). -/
def execRdDigest (i : BitVec 3) (s : State) : Host.Outcome State Fault Refusal :=
  .next (s.finishRead (digestWord i s.regs))

/-- RD.CMD (R193): a write-only register reads 0. -/
def execRdCmd (s : State) : Host.Outcome State Fault Refusal :=
  .next (s.finishRead 0#32)

/-- RD.DIN_W (R193). -/
def execRdDinW (s : State) : Host.Outcome State Fault Refusal :=
  .next (s.finishRead 0#32)

/-- RD.DIN_B (R193). -/
def execRdDinB (s : State) : Host.Outcome State Fault Refusal :=
  .next (s.finishRead 0#32)

/-- RD.RSV.40 (R194): a reserved offset reads 0. -/
def execRdRsv40 (_ : BitVec 4) (s : State) : Host.Outcome State Fault Refusal :=
  .next (s.finishRead 0#32)

/-- RD.RSV.80 (R194). -/
def execRdRsv80 (_ : BitVec 4) (s : State) : Host.Outcome State Fault Refusal :=
  .next (s.finishRead 0#32)

/-- RD.RSV.C0 (R194). -/
def execRdRsvC0 (_ : BitVec 4) (s : State) : Host.Outcome State Fault Refusal :=
  .next (s.finishRead 0#32)

end Sys2Proof.Machine
end

