-- ==== Sys2Proof/Machine/Dispatch.lean ====
section
/-! DEFINITION. One arm per instruction. -/

namespace Sys2Proof.Machine

/-- The effect of one transaction. -/
def exec (i : Instr) (s : State) : Host.Outcome State Fault Refusal :=
  match i with
  | .cmdNop => Sys2Proof.Machine.execCmdNop s
  | .cmdReset => Sys2Proof.Machine.execCmdReset s
  | .cmdFinal => Sys2Proof.Machine.execCmdFinal s
  | .cmdRsv d => Sys2Proof.Machine.execCmdRsv d s
  | .wrStatus d => Sys2Proof.Machine.execWrStatus d s
  | .wrMlenLo d => Sys2Proof.Machine.execWrMlenLo d s
  | .wrMlenHi d => Sys2Proof.Machine.execWrMlenHi d s
  | .wrBytecntLo d => Sys2Proof.Machine.execWrBytecntLo d s
  | .wrBytecntHi d => Sys2Proof.Machine.execWrBytecntHi d s
  | .pushw d => Sys2Proof.Machine.execPushw d s
  | .pushb d => Sys2Proof.Machine.execPushb d s
  | .wrDigest j d => Sys2Proof.Machine.execWrDigest j d s
  | .wrRsv40 x d => Sys2Proof.Machine.execWrRsv40 x d s
  | .wrRsv80 x d => Sys2Proof.Machine.execWrRsv80 x d s
  | .wrRsvC0 x d => Sys2Proof.Machine.execWrRsvC0 x d s
  | .rdCmd => Sys2Proof.Machine.execRdCmd s
  | .rdStatus => Sys2Proof.Machine.execRdStatus s
  | .rdMlenLo => Sys2Proof.Machine.execRdMlenLo s
  | .rdMlenHi => Sys2Proof.Machine.execRdMlenHi s
  | .rdBytecntLo => Sys2Proof.Machine.execRdBytecntLo s
  | .rdBytecntHi => Sys2Proof.Machine.execRdBytecntHi s
  | .rdDinW => Sys2Proof.Machine.execRdDinW s
  | .rdDinB => Sys2Proof.Machine.execRdDinB s
  | .rdDigest j => Sys2Proof.Machine.execRdDigest j s
  | .rdRsv40 x => Sys2Proof.Machine.execRdRsv40 x s
  | .rdRsv80 x => Sys2Proof.Machine.execRdRsv80 x s
  | .rdRsvC0 x => Sys2Proof.Machine.execRdRsvC0 x s

end Sys2Proof.Machine
end

