-- ==== Sys2Proof/Machine/Step.lean ====
section
/-! DEFINITION. One step: the core takes the next event at its port (20_memory.md R60: one transaction at a time, in the
order issued, each atomic). -/

namespace Sys2Proof.Machine

/-- One step. With nothing at the port the core waits, and its state persists (60_exceptions.md R227). Power-on reset
wins over a transaction in progress (70_reset_and_hazards.md R245). An access is decoded and runs to completion, or is
refused with no step (20_memory.md R55). -/
def step (s : State) : Host.Outcome State Fault Refusal :=
  match s.pending with
  | [] => .next s
  | .powerOnReset _ :: rest => .next (State.powerOnReset { s with pending := rest })
  | .access r :: rest =>
    match acceptRequest r with
    | .ok i => exec i { s with pending := rest }
    | .error e => .refused e

/-- The transaction with the packed bits `w` presented as the next thing at the port. -/
def State.withFetchWord (s : State) (nbits w : Nat) : State :=
  s.present (requestOfNat (w % 2 ^ nbits))

end Sys2Proof.Machine
end

