-- ==== Sys2Proof/Machine/HostScript.lean ====
section
/-! DEFINITION. The host-script syntax and its pseudo-instructions, as data (30_encoding.md R84, R85). They are notation
for transactions: each line assembles to packed transactions, and the machine sees only those. -/

namespace Sys2Proof.Machine

/-- `<reg>` of R84: a register name, or `@0x<hex>` with its low two bits zero (`slot k` is the word slot `A = 4k`). -/
inductive HostReg where
  | cmd
  | status
  | mlenLo
  | mlenHi
  | bytecntLo
  | bytecntHi
  | dinW
  | dinB
  | digest (i : BitVec 3)
  | slot (k : BitVec 6)
  deriving DecidableEq, Repr

/-- The byte offset of a register (20_memory.md R52). -/
def hostRegOffset : HostReg → BitVec 8
  | .cmd => 0x00#8
  | .status => 0x04#8
  | .mlenLo => 0x08#8
  | .mlenHi => 0x0C#8
  | .bytecntLo => 0x10#8
  | .bytecntHi => 0x14#8
  | .dinW => 0x18#8
  | .dinB => 0x1C#8
  | .digest i => 0x20#8 + i.setWidth 8 * 4#8
  | .slot k => k.setWidth 8 * 4#8

/-- One line of a host script: the two base forms of R84 and the pseudo-instructions of R85. -/
inductive ScriptLine where
  | wr (reg : HostReg) (imm : Word)
  | rd (reg : HostReg)
  | nop
  | reset
  | final
  | pushw (imm : Word)
  | pushb (imm : Byte)
  | setlen (n : Length)
  | rdstat
  | rddig (i : BitVec 3)
  | rddigest
  deriving DecidableEq, Repr

/-- `WR <reg>, <imm32>` encodes `Wr = 1`, `A` the register's offset, `D = <imm32>` (R84). -/
def assembleWr (reg : HostReg) (imm : Word) : Packed :=
  pack true (hostRegOffset reg) imm

/-- `RD <reg>` encodes `Wr = 0`, `A` the register's offset, `D = 0` (R84). -/
def assembleRd (reg : HostReg) : Packed :=
  pack false (hostRegOffset reg) 0#32

/-- The transactions of a script line (R84, R85). -/
def assemble : ScriptLine → List Packed
  | .wr reg imm => [assembleWr reg imm]
  | .rd reg => [assembleRd reg]
  | .nop => [assembleWr .cmd 0x00000000#32]
  | .reset => [assembleWr .cmd 0x00000001#32]
  | .final => [assembleWr .cmd 0x00000002#32]
  | .pushw imm => [assembleWr .dinW imm]
  | .pushb imm => [assembleWr .dinB (imm.setWidth 32)]
  | .setlen n => [assembleWr .mlenLo (n.extractLsb' 0 32), assembleWr .mlenHi ((n.extractLsb' 32 29).setWidth 32)]
  | .rdstat => [assembleRd .status]
  | .rddig i => [assembleRd (.digest i)]
  | .rddigest =>
    [assembleRd (.digest 0#3), assembleRd (.digest 1#3), assembleRd (.digest 2#3), assembleRd (.digest 3#3),
     assembleRd (.digest 4#3), assembleRd (.digest 5#3), assembleRd (.digest 6#3), assembleRd (.digest 7#3)]

/-- What the host presents at the port to run a script, in order (43_control.md R197: a host script is straight-line). -/
def scriptEvents (lines : List ScriptLine) : List PortEvent :=
  (lines.flatMap assemble).map fun t =>
    .access { we := wrField t, offset := (addrField t).toNat, width := 32, wdata := dataField t }

end Sys2Proof.Machine
end

