-- ==== Sys2Proof/Safety.lean ====
section
/-! DEFINITION. The terms claims are stated in: the reference reading of a message as padded blocks (40_framer.md R112,
42_compression.md R159), the message a register state stands for, the invariants of 10_state.md R47, the host's view of
the register window (R43), and straight-line runs of instructions. Nothing of the machine depends on this file. -/

namespace Sys2Proof.Machine

/-! ### The reference: a message as blocks -/

/-- Block `j` of a byte string, its missing bytes zero. -/
def blockAt (bs : List Byte) (j : Nat) : Block :=
  Vector.ofFn fun k => bs.getD (64 * j + k.val) 0x00#8

/-- The full 64-byte blocks of a byte string, block 0 first. -/
def fullBlocks (bs : List Byte) : List Block :=
  (List.range (bs.length / 64)).map (blockAt bs)

/-- The bytes after the last full block, followed by zeros (10_state.md R31). -/
def tailBlock (bs : List Byte) : Block :=
  blockAt bs (bs.length / 64)

/-- `Compress` folded over the full blocks of a byte string, starting from the IV (R159). -/
def hashBlocks (bs : List Byte) : HashState :=
  (fullBlocks bs).foldl compress iv

/-- The padded message of R112: `M || 0x80 || 0x00^k || bytes_be64(8 * L)` with `k = (55 - L) mod 64`. -/
def paddedMessage (m : List Byte) : List Byte :=
  m ++ 0x80#8 :: (List.replicate ((119 - m.length % 64) % 64) 0x00#8 ++ bytesBe64 (BitVec.ofNat 64 (8 * m.length)))

/-- The hash state of a whole message: every block of its padding compressed in order (R159). -/
def sha256 (m : List Byte) : HashState :=
  hashBlocks (paddedMessage m)

/-! ### What a register state stands for -/

/-- The registers have absorbed the message `m` (40_framer.md R100; 10_state.md R31, R32; R159). In Finalized the
buffer is empty and `H` is the hash of all of `m`. -/
def Represents (m : List Byte) (r : Regs) : Prop :=
  r.bytecnt.toNat = m.length ∧ m.length ≤ r.mlen.toNat ∧
  match r.phase with
  | .idle => m = [] ∧ r.h = iv ∧ r.buf = zeroBlock
  | .absorbing => m ≠ [] ∧ r.h = hashBlocks m ∧ r.buf = tailBlock m
  | .finalized => m.length = r.mlen.toNat ∧ r.h = sha256 m ∧ r.buf = zeroBlock

/-- The message bytes an instruction carries, if it is a push (R100). -/
def pushedBytes : Instr → List Byte
  | .pushb d => pushBytesB d
  | .pushw d => pushBytesW d
  | _ => []

/-- The instruction is a push. -/
def isPush : Instr → Bool
  | .pushb _ => true
  | .pushw _ => true
  | _ => false

/-! ### Invariants -/

/-- The invariants of R47 that hold between any two transactions, in its order. -/
structure Regs.Inv (r : Regs) : Prop where
  /-- R47.1. -/
  count_le_length : r.bytecnt.toNat ≤ r.mlen.toNat
  /-- R47.2. -/
  idle_is_clean : r.phase = .idle → r.bytecnt = 0#64 ∧ r.h = iv ∧ r.buf = zeroBlock
  /-- R47.3. -/
  finalized_is_complete : r.phase = .finalized → r.bytecnt.toNat = r.mlen.toNat ∧ r.buf = zeroBlock
  /-- R47.4, first half. -/
  no_error_iff_no_code : r.err = false ↔ r.errcode = 0#4
  /-- R47.4, second half. -/
  code_in_range : r.err = true → 1 ≤ r.errcode.toNat ∧ r.errcode.toNat ≤ 5
  /-- R47.5. -/
  phase_is_legal : phaseCode r.phase ≠ 3#2
  /-- R47.6. -/
  length_bounded : r.mlen.toNat < 2 ^ 61
  /-- R47.7: R31's zero bytes. Its message bytes are `Represents`. -/
  tail_is_zero : ∀ (k : Nat) (hk : k < 64), fill r ≤ k → r.buf[k] = 0x00#8
  /-- R47.8. -/
  absorbing_has_bytes : r.phase = .absorbing → 1 ≤ r.bytecnt.toNat

/-! ### The host's view -/

/-- What a read of the word at offset `a` returns (10_state.md R43; 20_memory.md R52, R53), as one table over the whole
window; write-only and reserved slots read 0. -/
def windowRead (a : BitVec 8) (r : Regs) : Word :=
  if a = 0x04#8 then statusWord r
  else if a = 0x08#8 then mlenLo r.mlen
  else if a = 0x0C#8 then mlenHi r.mlen
  else if a = 0x10#8 then bytecntLo r.bytecnt
  else if a = 0x14#8 then bytecntHi r.bytecnt
  else if 0x20 ≤ a.toNat ∧ a.toNat ≤ 0x3C then digestWord (a.extractLsb' 2 3) r
  else 0#32

/-- Two register states differ at most in the accumulator and the buffer. -/
def SameButHash (r r' : Regs) : Prop :=
  r.phase = r'.phase ∧ r.err = r'.err ∧ r.errcode = r'.errcode ∧ r.mlen = r'.mlen ∧ r.bytecnt = r'.bytecnt

/-! ### Runs -/

/-- Instructions executed one after the other (20_memory.md R60), stopping at the first that does not complete. -/
def execAll : List Instr → State → Host.Outcome State Fault Refusal
  | [], s => .next s
  | i :: is, s =>
    match exec i s with
    | .next t => execAll is t
    | .fault e => .fault e
    | .refused e => .refused e

/-- The host issues the instructions `is`, in order, before whatever the port already holds. -/
def State.issue (is : List Instr) (s : State) : State :=
  { s with pending := is.map (fun i => .access i.request) ++ s.pending }

end Sys2Proof.Machine
end

