-- ==== Sys2Proof/Certificates/Slice0/Obligations.lean ====
section
/-! DEFINITION. The statements about the model, for the provers. Each docstring says which rule of spec/ it formalises,
or that it is derived. A transaction's next state is written out whole wherever a rule gives it, so that the equation
also says what the transaction leaves unchanged; `resp` is the model's own field (log entry 2). -/

open Sys2Proof Sys2Proof.Machine

/-! ### Encoding -/

/-- Derived (95_test_vectors.md L3): packed transactions as the spec's programs write them decode to what they stand
for; one per family. -/
def Obligations.SpecTransactionsDecode : Prop :=
  decode 0x10000000000#41 = .ok .cmdNop ∧
  decode 0x10000000001#41 = .ok .cmdReset ∧
  decode 0x10000000002#41 = .ok .cmdFinal ∧
  decode 0x10000000102#41 = .ok (.cmdRsv 0x102#32) ∧
  decode 0x10800000003#41 = .ok (.wrMlenLo 3#32) ∧
  decode 0x10cffffffff#41 = .ok (.wrMlenHi 0xffffffff#32) ∧
  decode 0x11861626364#41 = .ok (.pushw 0x61626364#32) ∧
  decode 0x11c00000061#41 = .ok (.pushb 0x61#32) ∧
  decode 0x104ffffffff#41 = .ok (.wrStatus 0xffffffff#32) ∧
  decode 0x18012345678#41 = .ok (.wrRsv80 0#4 0x12345678#32) ∧
  decode 0x00400000000#41 = .ok .rdStatus ∧
  decode 0x03c00000000#41 = .ok (.rdDigest 7#3) ∧
  decode 0x04000000000#41 = .ok (.rdRsv40 0#4)

/-- Derived (30_encoding.md section 6): for every well-formed instruction, decoding its encoding gives it back. -/
def Obligations.DecodeInvertsEncode : Prop :=
  ∀ i : Instr, i.wf = true → decode (encode i) = .ok i

/-- Derived (30_encoding.md section 6): what a transaction decodes to is well formed, lies in a row of R86 that covers
the transaction, and any other row that covers it is the reserved-command row, over which the three commands go first.
-/
def Obligations.AlignedTransactionsHaveOneRow : Prop :=
  ∀ t : Packed, (addrField t).extractLsb' 0 2 = 0b00#2 →
    ∃ i, decode t = .ok i ∧ i.wf = true ∧ (tableRow i).covers t ∧
      ∀ j : Instr, (tableRow j).covers t → tableRow j ≠ tableRow i →
        (tableRow i).fullMask = true ∧ tableRow j = tableRow (.cmdRsv 0x3#32)

/-- R72: the data field of a read is ignored by the decoder and by the core, and the canonical encoding sets it to 0. -/
def Obligations.ReadDataFieldIsIgnored : Prop :=
  (∀ (a : BitVec 8) (d d' : Word), decode (pack false a d) = decode (pack false a d')) ∧
  (∀ (s : State) (o w : Nat) (d d' : Word),
    step (s.present ⟨false, o, w, d⟩) = step (s.present ⟨false, o, w, d'⟩)) ∧
  (∀ (t : Packed) (i : Instr), decode t = .ok i → encode i = canonical t) ∧
  (∀ t : Packed, wrField t = false → dataField (canonical t) = 0#32)

/-- R71: a packed transaction with `A[1:0] != 00` spells no transaction: the decoder says so and the model refuses it.
-/
def Obligations.MisalignedTransactionsAreRefused : Prop :=
  (∀ t : Packed, decode t = .error .misalignedOffset ↔ (addrField t).extractLsb' 0 2 ≠ 0b00#2) ∧
  (∀ (s : State) (we : Bool) (a : BitVec 8) (d : Word), a.extractLsb' 0 2 ≠ 0b00#2 →
    step (s.present ⟨we, a.toNat, 32, d⟩) = .refused (.noTransaction .misalignedOffset))

/-- R55: exactly the accesses that are misaligned, past the window or not 32 bits wide are refused, with no step. -/
def Obligations.RefusalsAreExactlyTheUncarriableAccesses : Prop :=
  ∀ (s : State) (r : BusRequest),
    (∃ e, step (s.present r) = .refused (.noTransaction e)) ↔
      (r.offset % 4 ≠ 0 ∨ 0xFF < r.offset ∨ r.width ≠ 32)

/-- Derived (30_encoding.md R77): a command word is BAD_CMD exactly when `RSV != 0` or `OP` is none of 0x00, 0x01,
0x02. -/
def Obligations.ReservedCommandWords : Prop :=
  ∀ d : Word, decode (pack true 0x00#8 d) = .ok (.cmdRsv d) ↔
    ¬ (d.extractLsb' 8 24 = 0#24 ∧
      (d.extractLsb' 0 8 = 0x00#8 ∨ d.extractLsb' 0 8 = 0x01#8 ∨ d.extractLsb' 0 8 = 0x02#8))

/-- R85: the pseudo-instructions expand to the transactions the rule lists; `SETLEN` splits its length in two. -/
def Obligations.PseudoInstructionsExpand : Prop :=
  assemble .nop = [encode .cmdNop] ∧ assemble .reset = [encode .cmdReset] ∧ assemble .final = [encode .cmdFinal] ∧
  (∀ d, assemble (.pushw d) = [encode (.pushw d)]) ∧
  (∀ b : Byte, assemble (.pushb b) = [encode (.pushb (b.setWidth 32))]) ∧
  (∀ n : Length, ∃ lo hi : Word, assemble (.setlen n) = [encode (.wrMlenLo lo), encode (.wrMlenHi hi)] ∧
    lo.toNat = n.toNat % 2 ^ 32 ∧ hi.toNat = n.toNat / 2 ^ 32) ∧
  assemble .rdstat = [encode .rdStatus] ∧
  (∀ i, assemble (.rddig i) = [encode (.rdDigest i)]) ∧
  assemble .rddigest = (List.range 8).map (fun k => encode (.rdDigest (BitVec.ofNat 3 k)))

/-! ### The step -/

/-- Derived (20_memory.md section 4; 30_encoding.md section 1): when the access at the head of the port decodes to `i`,
a step is `exec i` on the state without that access. -/
def Obligations.StepRunsTheDecodedInstruction : Prop :=
  ∀ (s : State) (r : BusRequest) (rest : List PortEvent) (i : Instr),
    s.pending = .access r :: rest → decodeRequest r = .ok i → step s = exec i { s with pending := rest }

/-- Derived (30_encoding.md section 1): a well-formed instruction the host issues is the one the next step executes. -/
def Obligations.IssuedInstructionRuns : Prop :=
  ∀ (s : State) (i : Instr), i.wf = true → step (s.present i.request) = exec i s

/-- Derived (70_reset_and_hazards.md R245, with the state of R240): power-on reset wins over a transaction in progress,
whatever it is. That the later events of the port stay (`t.pending = rest`) is the model's choice (log entry 5), on
which the spec is silent. -/
def Obligations.PowerOnResetWins : Prop :=
  ∀ (s : State) (inFlight : Option BusRequest) (rest : List PortEvent),
    s.pending = .powerOnReset inFlight :: rest →
    ∃ t, step s = .next t ∧ t.regs = Regs.reset ∧ t.pending = rest

/-- Derived (60_exceptions.md section 5; log entry 3 is the model's choice): with nothing at the port a step changes
nothing. -/
def Obligations.WaitingCoreKeepsItsState : Prop :=
  ∀ s : State, s.pending = [] → step s = .next s

/-- Derived (60_exceptions.md R210, R220): every instruction completes in every state, and takes nothing from the port
beyond itself. -/
def Obligations.EveryInstructionCompletes : Prop :=
  ∀ (i : Instr) (s : State), ∃ t, exec i s = .next t ∧ t.pending = s.pending ∧ t.resp ≠ .none

/-- Derived (10_state.md R20): nothing but the persistent state survives from one transaction to the next: what a
transaction does to the registers and what it returns depend on the registers alone. -/
def Obligations.OnlyRegistersSurvive : Prop :=
  ∀ (i : Instr) (s s' t t' : State), s.regs = s'.regs → exec i s = .next t → exec i s' = .next t' →
    t.regs = t'.regs ∧ t.resp = t'.resp

/-! ### Reset -/

/-- R46, with the IV of R24: the value of every piece of state after power-on reset, after CMD.RESET and in the model's
reset state. -/
def Obligations.ResetValues : Prop :=
  ∀ r : Regs,
    (r = State.reset.regs ∨ (∃ s t, exec .cmdReset s = .next t ∧ r = t.regs) ∨
      (∃ s t x rest, s.pending = .powerOnReset x :: rest ∧ step s = .next t ∧ r = t.regs)) →
    r.h = #v[0x6a09e667#32, 0xbb67ae85#32, 0x3c6ef372#32, 0xa54ff53a#32, 0x510e527f#32, 0x9b05688c#32, 0x1f83d9ab#32,
      0x5be0cd19#32] ∧
    r.phase = .idle ∧ r.err = false ∧ r.errcode = 0#4 ∧ r.mlen = 0#61 ∧ r.bytecnt = 0#64 ∧
    ∀ (k : Nat) (hk : k < 64), r.buf[k] = 0x00#8

/-- R183: CMD.RESET, accepted in every state and while `ERR = 1`, leaves every register at its reset value. -/
def Obligations.ResetCommand : Prop :=
  encode .cmdReset = 0x10000000001#41 ∧
  ∀ s : State, exec .cmdReset s = .next { s with
    regs := { h := iv, phase := .idle, err := false, errcode := 0#4, mlen := 0#61, bytecnt := 0#64,
              buf := Vector.replicate 64 0x00#8 }
    resp := .writeDone }

/-- Derived (70_reset_and_hazards.md R241): CMD.RESET leaves exactly the registers power-on reset leaves. -/
def Obligations.ResetCommandEqualsPowerOnReset : Prop :=
  ∀ (s s' t t' : State) (x : Option BusRequest) (rest : List PortEvent), exec .cmdReset s = .next t →
    s'.pending = .powerOnReset x :: rest → step s' = .next t' → t.regs = t'.regs

/-! ### Commands -/

/-- R182: CMD.NOP has no effect, in every state and whether or not `ERR = 1`. -/
def Obligations.NopCommand : Prop :=
  encode .cmdNop = 0x10000000000#41 ∧
  ∀ s : State, exec .cmdNop s = .next { s with resp := .writeDone }

/-- R185: a reserved command records BAD_CMD (1) when `ERR` was 0 and changes nothing otherwise. -/
def Obligations.ReservedCommand : Prop :=
  (∀ d, encode (.cmdRsv d) = 0x10000000000#41 ||| d.setWidth 41) ∧
  ∀ (s : State) (d : Word), exec (.cmdRsv d) s = .next { s with
    regs := if s.regs.err then s.regs else { s.regs with err := true, errcode := 1#4 }
    resp := .writeDone }

/-- R184: CMD.FINAL: ignored while `ERR = 1`; NOT_ACCEPTING (4), then LEN_MISMATCH (3); else `Pad` and Finalized. -/
def Obligations.FinalCommand : Prop :=
  encode .cmdFinal = 0x10000000002#41 ∧
  ∀ s : State, exec .cmdFinal s = .next { s with
    regs :=
      if s.regs.err = true then s.regs
      else if s.regs.phase = .finalized then { s.regs with err := true, errcode := 4#4 }
      else if s.regs.bytecnt.toNat ≠ s.regs.mlen.toNat then { s.regs with err := true, errcode := 3#4 }
      else { pad s.regs with phase := .finalized }
    resp := .writeDone }

/-- R109, with R110's threshold and R34's length: `Pad` compresses one block below fill level 56 and two from there on.
Each block is given byte by byte; the buffer is cleared and nothing but `H` and the buffer changes. -/
def Obligations.PadBuildsTheFinalBlocks : Prop :=
  ∀ r : Regs,
    let lengthByte (k : Nat) : Byte := BitVec.ofNat 8 (r.mlen.toNat * 8 / 256 ^ (63 - k))
    let padded : Block := Vector.ofFn fun k => if k.val = fill r then 0x80#8 else r.buf[k.val]
    let last : Block := Vector.ofFn fun k => if 56 ≤ k.val then lengthByte k.val else 0x00#8
    let only : Block := Vector.ofFn fun k => if 56 ≤ k.val then lengthByte k.val else padded[k.val]
    pad r = { r with
      h := if 56 ≤ fill r then compress (compress r.h padded) last else compress r.h only
      buf := Vector.replicate 64 0x00#8 }

/-- R34: the bit length is exact and never wraps. -/
def Obligations.BitLengthIsExact : Prop :=
  ∀ m : Length, (bitLength m).toNat = m.toNat * 8

/-- R116: the pad sets bit `31 - 8*(r mod 4)` of block word `r / 4`; the earlier bytes of the word keep their message
data and the later bits of the word are zero, as are the later bytes of the block, whose earlier bytes stay. `r` is the
fill level; R31 gives the zero bytes from there on. -/
def Obligations.PadBitWithinItsWord : Prop :=
  ∀ r : Regs, (∀ (k : Nat) (hk : k < 64), fill r ≤ k → r.buf[k] = 0x00#8) →
    (∀ (p : Nat) (hp : p < 16), p = fill r / 4 → ∀ j : Nat, j < 32 →
      ((blockWords (placePad r).buf)[p]).getLsbD j =
        if j = 31 - 8 * (fill r % 4) then true
        else if j < 31 - 8 * (fill r % 4) then false
        else ((blockWords r.buf)[p]).getLsbD j) ∧
    (∀ (k : Nat) (hk : k < 64), k ≠ fill r → (placePad r).buf[k] = if fill r < k then 0x00#8 else r.buf[k])

/-! ### Length registers and pushes -/

/-- R101: WR.MLEN_LO sets `MLEN[31:0]` in Idle, keeps `MLEN[60:32]`, and is MLEN_LOCKED (5) elsewhere. -/
def Obligations.WriteMlenLo : Prop :=
  (∀ d, encode (.wrMlenLo d) = 0x10800000000#41 ||| d.setWidth 41) ∧
  ∀ (s : State) (d : Word), exec (.wrMlenLo d) s = .next { s with
    regs :=
      if s.regs.err = true then s.regs
      else if s.regs.phase ≠ .idle then { s.regs with err := true, errcode := 5#4 }
      else { s.regs with mlen := BitVec.ofNat 61 (s.regs.mlen.toNat / 2 ^ 32 * 2 ^ 32 + d.toNat) }
    resp := .writeDone }

/-- R102: WR.MLEN_HI sets `MLEN[60:32]` from `D[28:0]` in Idle, keeps `MLEN[31:0]`, and is MLEN_LOCKED (5) elsewhere. -/
def Obligations.WriteMlenHi : Prop :=
  (∀ d, encode (.wrMlenHi d) = 0x10c00000000#41 ||| d.setWidth 41) ∧
  ∀ (s : State) (d : Word), exec (.wrMlenHi d) s = .next { s with
    regs :=
      if s.regs.err = true then s.regs
      else if s.regs.phase ≠ .idle then { s.regs with err := true, errcode := 5#4 }
      else { s.regs with mlen := BitVec.ofNat 61 (d.toNat % 2 ^ 29 * 2 ^ 32 + s.regs.mlen.toNat % 2 ^ 32) }
    resp := .writeDone }

/-- R104 with R105: `Append` stores the byte at `BYTECNT mod 64` and counts it; when the block fills it is folded into
`H` and the buffer is cleared. Nothing else changes. -/
def Obligations.AppendStoresThenCompresses : Prop :=
  ∀ (b : Byte) (r : Regs),
    let stored : Block := Vector.ofFn fun k => if k.val = r.bytecnt.toNat % 64 then b else r.buf[k.val]
    append b r =
      if r.bytecnt.toNat % 64 = 63 then
        { r with h := compress r.h stored, buf := Vector.replicate 64 0x00#8, bytecnt := r.bytecnt + 1#64 }
      else { r with buf := stored, bytecnt := r.bytecnt + 1#64 }

/-- R106: PUSHB: ignored while `ERR = 1`; NOT_ACCEPTING (4), then OVERRUN (2); else the byte `D[7:0]` is appended and
the core is Absorbing. -/
def Obligations.PushByte : Prop :=
  (∀ d, encode (.pushb d) = 0x11c00000000#41 ||| d.setWidth 41) ∧
  ∀ (s : State) (d : Word), exec (.pushb d) s = .next { s with
    regs :=
      if s.regs.err = true then s.regs
      else if s.regs.phase = .finalized then { s.regs with err := true, errcode := 4#4 }
      else if s.regs.mlen.toNat < s.regs.bytecnt.toNat + 1 then { s.regs with err := true, errcode := 2#4 }
      else { append (BitVec.ofNat 8 d.toNat) s.regs with phase := .absorbing }
    resp := .writeDone }

/-- R107: PUSHW: the same with four bytes, most significant first, all or nothing. -/
def Obligations.PushWord : Prop :=
  (∀ d, encode (.pushw d) = 0x11800000000#41 ||| d.setWidth 41) ∧
  ∀ (s : State) (d : Word), exec (.pushw d) s = .next { s with
    regs :=
      if s.regs.err = true then s.regs
      else if s.regs.phase = .finalized then { s.regs with err := true, errcode := 4#4 }
      else if s.regs.mlen.toNat < s.regs.bytecnt.toNat + 4 then { s.regs with err := true, errcode := 2#4 }
      else { append (BitVec.ofNat 8 d.toNat) (append (BitVec.ofNat 8 (d.toNat / 2 ^ 8))
               (append (BitVec.ofNat 8 (d.toNat / 2 ^ 16)) (append (BitVec.ofNat 8 (d.toNat / 2 ^ 24)) s.regs)))
             with phase := .absorbing }
    resp := .writeDone }

/-- Derived (40_framer.md R114), at one word: an accepted PUSHW leaves the state that four PUSHBs of its bytes leave. -/
def Obligations.WordPushEqualsFourBytePushes : Prop :=
  ∀ (s : State) (d : Word), pushAdmit 4 s.regs = .accept →
    exec (.pushw d) s = execAll [.pushb (d >>> 24), .pushb (d >>> 16), .pushb (d >>> 8), .pushb d] s

/-- Derived (20_memory.md R56, 41_schedule.md R132): an accepted word push at a word-aligned fill level becomes, whole,
the schedule word of its block. -/
def Obligations.AlignedWordPushIsScheduleWord : Prop :=
  ∀ (s t : State) (d : Word) (p : Nat) (hp : p < 16),
    pushAdmit 4 s.regs = .accept → fill s.regs = 4 * p → exec (.pushw d) s = .next t →
    (p < 15 → (expand t.regs.buf)[p] = d ∧ t.regs.h = s.regs.h) ∧
    (p = 15 → ∃ b : Block, t.regs.h = compress s.regs.h b ∧ (expand b)[p] = d ∧
      ∀ (k : Nat) (hk : k < 60), b[k] = s.regs.buf[k])

/-! ### Reads and ignored writes -/

/-- R187 with the layout of R37: RD.STATUS returns its fields in their places, the reserved bits 0, and changes nothing.
Where the invariants of R47 hold and no error is recorded, the word is 0, 1 or 2. -/
def Obligations.ReadStatus : Prop :=
  encode .rdStatus = 0x00400000000#41 ∧
  (∀ s : State, exec .rdStatus s = .next { s with
    resp := .readData (0#24 ++ s.regs.errcode ++ 0#1 ++ BitVec.ofBool s.regs.err ++ phaseCode s.regs.phase) }) ∧
  ∀ s : State, s.regs.Inv → s.regs.err = false →
    ∃ v ∈ [0x00#32, 0x01#32, 0x02#32], exec .rdStatus s = .next { s with resp := .readData v }

/-- R188 and R189: the two halves of `MLEN`. -/
def Obligations.ReadMlen : Prop :=
  encode .rdMlenLo = 0x00800000000#41 ∧ encode .rdMlenHi = 0x00c00000000#41 ∧
  ∀ s : State,
    exec .rdMlenLo s = .next { s with resp := .readData (BitVec.ofNat 32 (s.regs.mlen.toNat % 2 ^ 32)) } ∧
    exec .rdMlenHi s = .next { s with resp := .readData (BitVec.ofNat 32 (s.regs.mlen.toNat / 2 ^ 32)) } ∧
    s.regs.mlen.toNat / 2 ^ 32 < 2 ^ 29

/-- R190 and R191: the two halves of `BYTECNT`; bits 63:61 of it read 0 wherever the invariants of R47 hold. -/
def Obligations.ReadBytecnt : Prop :=
  encode .rdBytecntLo = 0x01000000000#41 ∧ encode .rdBytecntHi = 0x01400000000#41 ∧
  ∀ s : State,
    exec .rdBytecntLo s = .next { s with resp := .readData (BitVec.ofNat 32 (s.regs.bytecnt.toNat % 2 ^ 32)) } ∧
    exec .rdBytecntHi s = .next { s with resp := .readData (BitVec.ofNat 32 (s.regs.bytecnt.toNat / 2 ^ 32)) } ∧
    (s.regs.Inv → s.regs.bytecnt.toNat / 2 ^ 32 < 2 ^ 29)

/-- Derived (43_control.md R192, 10_state.md R42; log entry 12 on R192's aside): RD.DIGEST returns `H[i]` in Finalized,
whatever `ERR` is, and 0 elsewhere. -/
def Obligations.ReadDigest : Prop :=
  (∀ i : BitVec 3, encode (.rdDigest i) = BitVec.ofNat 41 ((0x20 + 4 * i.toNat) * 2 ^ 32)) ∧
  ∀ (s : State) (i : BitVec 3),
    (s.regs.phase = .finalized →
      exec (.rdDigest i) s = .next { s with resp := .readData (s.regs.h[i.toNat]'(i.isLt)) }) ∧
    (s.regs.phase ≠ .finalized → exec (.rdDigest i) s = .next { s with resp := .readData 0#32 })

/-- R193 and R194: write-only registers and reserved offsets read 0. -/
def Obligations.WriteOnlyAndReservedReadZero : Prop :=
  encode .rdCmd = 0x00000000000#41 ∧ encode .rdDinW = 0x01800000000#41 ∧ encode .rdDinB = 0x01c00000000#41 ∧
  (∀ x : BitVec 4,
    encode (.rdRsv40 x) = pack false (BitVec.ofNat 8 (0x40 + 4 * x.toNat)) 0#32 ∧
    encode (.rdRsv80 x) = pack false (BitVec.ofNat 8 (0x80 + 4 * x.toNat)) 0#32 ∧
    encode (.rdRsvC0 x) = pack false (BitVec.ofNat 8 (0xC0 + 4 * x.toNat)) 0#32) ∧
  ∀ (s : State) (x : BitVec 4) (i : Instr),
    i ∈ [.rdCmd, .rdDinW, .rdDinB, .rdRsv40 x, .rdRsv80 x, .rdRsvC0 x] →
    exec i s = .next { s with resp := .readData 0#32 }

/-- R195 and R196: writes to read-only registers and to reserved offsets have no effect and record no error. -/
def Obligations.IgnoredWritesHaveNoEffect : Prop :=
  (∀ d : Word, encode (.wrStatus d) = pack true 0x04#8 d ∧ encode (.wrBytecntLo d) = pack true 0x10#8 d ∧
    encode (.wrBytecntHi d) = pack true 0x14#8 d) ∧
  (∀ (j : BitVec 3) (d : Word), encode (.wrDigest j d) = pack true (BitVec.ofNat 8 (0x20 + 4 * j.toNat)) d) ∧
  (∀ (x : BitVec 4) (d : Word),
    encode (.wrRsv40 x d) = pack true (BitVec.ofNat 8 (0x40 + 4 * x.toNat)) d ∧
    encode (.wrRsv80 x d) = pack true (BitVec.ofNat 8 (0x80 + 4 * x.toNat)) d ∧
    encode (.wrRsvC0 x d) = pack true (BitVec.ofNat 8 (0xC0 + 4 * x.toNat)) d) ∧
  ∀ (s : State) (d : Word) (j : BitVec 3) (x : BitVec 4) (i : Instr),
    i ∈ [.wrStatus d, .wrBytecntLo d, .wrBytecntHi d, .wrDigest j d, .wrRsv40 x d, .wrRsv80 x d, .wrRsvC0 x d] →
    exec i s = .next { s with resp := .writeDone }

/-- Derived (10_state.md R43, 20_memory.md R52, R53, R59): a read of any aligned offset returns what the window's table
says stands there and changes no register, so that reading it again returns the same. -/
def Obligations.EveryWindowReadHasNoSideEffect : Prop :=
  ∀ (s : State) (a : BitVec 8) (d : Word), a.extractLsb' 0 2 = 0b00#2 →
    step (s.present ⟨false, a.toNat, 32, d⟩) = .next { s with resp := .readData (windowRead a s.regs) }

/-- Derived (43_control.md R192, 20_memory.md R60): outside Finalized no read tells anything of the accumulator or the
buffer: two cores that differ only there return the same for every instruction. -/
def Obligations.NoPartialDigestIsReadable : Prop :=
  ∀ (i : Instr) (s s' t t' : State), SameButHash s.regs s'.regs → s.regs.phase ≠ .finalized →
    exec i s = .next t → exec i s' = .next t' → t.resp = t'.resp ∧ SameButHash t.regs t'.regs

/-! ### Errors -/

/-- Derived (60_exceptions.md R218, R212), for every instruction: recording an error is precise: the registers are
those before, plus `ERR` and `ERRCODE`. -/
def Obligations.ErrorsArePrecise : Prop :=
  ∀ (i : Instr) (s t : State), s.regs.err = false → exec i s = .next t → t.regs.err = true →
    ∃ c : ErrCause, t.regs = { s.regs with err := true, errcode := errCauseCode c }

/-- R211: each code is recorded by exactly the instructions and conditions its row names, in the order of R214. -/
def Obligations.ErrorCodesHaveTheirCauses : Prop :=
  ∀ (i : Instr) (s t : State), s.regs.err = false → s.regs.errcode = 0#4 → exec i s = .next t →
    (t.regs.errcode = 1#4 ↔ ∃ d, i = .cmdRsv d) ∧
    (t.regs.errcode = 2#4 ↔ isPush i = true ∧ s.regs.phase ≠ .finalized ∧
      s.regs.mlen.toNat < s.regs.bytecnt.toNat + (pushedBytes i).length) ∧
    (t.regs.errcode = 3#4 ↔ i = .cmdFinal ∧ s.regs.phase ≠ .finalized ∧ s.regs.bytecnt.toNat ≠ s.regs.mlen.toNat) ∧
    (t.regs.errcode = 4#4 ↔ (isPush i = true ∨ i = .cmdFinal) ∧ s.regs.phase = .finalized) ∧
    (t.regs.errcode = 5#4 ↔ (∃ d, i = .wrMlenLo d ∨ i = .wrMlenHi d) ∧ s.regs.phase ≠ .idle) ∧
    t.regs.errcode.toNat ≤ 5 ∧ (t.regs.err = true ↔ t.regs.errcode ≠ 0#4)

/-- R213 with R219: while `ERR = 1`, every instruction except CMD.RESET leaves the registers as they are, so that no
further error is recorded; no step reaches Finalized; reads return what the window holds, the digest among it where the
error came after FINAL. -/
def Obligations.FrozenCore : Prop :=
  ∀ (s : State), s.regs.err = true →
    (∀ (i : Instr) (t : State), i ≠ .cmdReset → exec i s = .next t → t.regs = s.regs) ∧
    (∀ t, step s = .next t → t.regs.phase = .finalized → s.regs.phase = .finalized) ∧
    (∀ (a : BitVec 8) (d : Word), a.extractLsb' 0 2 = 0b00#2 →
      step (s.present ⟨false, a.toNat, 32, d⟩) = .next { s with resp := .readData (windowRead a s.regs) }) ∧
    (∀ i : BitVec 3, exec (.rdDigest i) s = .next { s with
      resp := .readData (if s.regs.phase = .finalized then s.regs.h[i.toNat]'(i.isLt) else 0#32) })

/-- Derived (10_state.md R36, 60_exceptions.md R218): only a reset clears `ERR`, and `ERRCODE` keeps the first error
until then. -/
def Obligations.OnlyResetClearsError : Prop :=
  ∀ s t : State, s.regs.err = true → step s = .next t → ¬ (t.regs.err = true ∧ t.regs.errcode = s.regs.errcode) →
    (∃ x rest, s.pending = .powerOnReset x :: rest) ∨
    (∃ r rest, s.pending = .access r :: rest ∧ decodeRequest r = .ok .cmdReset)

/-! ### The state machine and the accumulator -/

/-- R180 with R108: the transitions of `STATE`, and no others. From Idle, where no byte has been pushed (R47.2), an
accepted CMD.FINAL means `MLEN = 0`. -/
def Obligations.PhaseTransitions : Prop :=
  (∀ (i : Instr) (s t : State), exec i s = .next t →
    t.regs.phase =
      match i with
      | .cmdReset => .idle
      | .cmdFinal => if finalAdmit s.regs = .accept then .finalized else s.regs.phase
      | .pushb _ => if pushAdmit 1 s.regs = .accept then .absorbing else s.regs.phase
      | .pushw _ => if pushAdmit 4 s.regs = .accept then .absorbing else s.regs.phase
      | _ => s.regs.phase) ∧
  (∀ r : Regs, r.phase = .idle → r.bytecnt = 0#64 → finalAdmit r = .accept → r.mlen = 0#61) ∧
  (∀ (n : Nat) (r : Regs), r.phase = .finalized → pushAdmit n r ≠ .accept ∧ finalAdmit r ≠ .accept) ∧
  (∀ (s : State) (x : Option BusRequest) (rest : List PortEvent), s.pending = .powerOnReset x :: rest →
    ∃ t, step s = .next t ∧ t.regs.phase = .idle)

/-- R23, for every instruction and for power-on reset: `H` changes only to the IV by a reset, or by compressing: at most
one block in a push that fills it, one or two in CMD.FINAL. -/
def Obligations.AccumulatorWriters : Prop :=
  (∀ (i : Instr) (s t : State), exec i s = .next t → t.regs.h ≠ s.regs.h →
    (i = .cmdReset ∧ t.regs.h = iv) ∨
    (isPush i = true ∧ 64 ≤ fill s.regs + (pushedBytes i).length ∧ ∃ b, t.regs.h = compress s.regs.h b) ∨
    (i = .cmdFinal ∧ t.regs.phase = .finalized ∧
      ((∃ b, t.regs.h = compress s.regs.h b) ∨ ∃ b b', t.regs.h = compress (compress s.regs.h b) b'))) ∧
  (∀ (s t : State) (x : Option BusRequest) (rest : List PortEvent), s.pending = .powerOnReset x :: rest →
    step s = .next t → t.regs.h = iv)

/-- Derived (10_state.md R47, its item 7 in the zero-byte half; log entry 11): every step keeps the invariants, from
every state that meets them. -/
def Obligations.StepKeepsTheInvariants : Prop :=
  ∀ s t : State, s.regs.Inv → step s = .next t → t.regs.Inv

/-- Derived (10_state.md R46, R47): the invariants hold after reset. -/
def Obligations.ResetMeetsTheInvariants : Prop :=
  State.reset.regs.Inv

/-! ### The message and its digest -/

/-- Derived (40_framer.md R100, R104; 10_state.md R31, R32; 42_compression.md R159): an accepted push extends the
message the registers stand for by exactly its bytes, in order. -/
def Obligations.AcceptedPushExtendsTheMessage : Prop :=
  ∀ (i : Instr) (s : State) (m : List Byte), isPush i = true → Represents m s.regs →
    pushAdmit (pushedBytes i).length s.regs = .accept →
    ∃ t, exec i s = .next t ∧ Represents (m ++ pushedBytes i) t.regs ∧ t.regs.phase = .absorbing ∧
      t.regs.mlen = s.regs.mlen ∧ t.regs.err = false

/-- Derived (40_framer.md R109, R112; 42_compression.md R159; 43_control.md R184): an accepted CMD.FINAL leaves in `H`
the hash of the whole padded message. -/
def Obligations.FinalHashesTheMessage : Prop :=
  ∀ (s : State) (m : List Byte), Represents m s.regs → finalAdmit s.regs = .accept →
    ∃ t, exec .cmdFinal s = .next t ∧ t.regs.phase = .finalized ∧ t.regs.h = sha256 m ∧ Represents m t.regs ∧
      t.regs.err = false

/-- Derived (10_state.md R31, R32; 42_compression.md R159): every step keeps the registers standing for a message: the
same one, one with a push's bytes after it, or the empty one after a reset. -/
def Obligations.StepKeepsTheMessage : Prop :=
  ∀ (s t : State) (m : List Byte), Represents m s.regs → step s = .next t →
    (Represents m t.regs) ∨ (Represents [] t.regs ∧ t.regs = Regs.reset) ∨
    (∃ r rest i, s.pending = .access r :: rest ∧ decodeRequest r = .ok i ∧ isPush i = true ∧
      Represents (m ++ pushedBytes i) t.regs)

/-- Derived (10_state.md R46): after reset the registers stand for the empty message. -/
def Obligations.ResetStandsForTheEmptyMessage : Prop :=
  Represents [] State.reset.regs

/-- Derived (70_reset_and_hazards.md R244, 40_framer.md R114): the host protocol. From any state, RESET, the two length
writes, pushes of any widths that make up `m`, and FINAL run to completion one transaction a step and leave the core
Finalized, without error, with the hash of `m` in `H`. -/
def Obligations.HostProtocolYieldsTheDigest : Prop :=
  ∀ (s : State) (m : List Byte) (pushes : List Instr) (lo hi : Word),
    m.length < 2 ^ 61 → lo.toNat = m.length % 2 ^ 32 → hi.toNat = m.length / 2 ^ 32 →
    (∀ i ∈ pushes, isPush i = true) → pushes.flatMap pushedBytes = m →
    ∃ t, core.run (pushes.length + 4)
        (s.issue ([.cmdReset, .wrMlenLo lo, .wrMlenHi hi] ++ pushes ++ [.cmdFinal])) = .next t ∧
      t.regs.phase = .finalized ∧ t.regs.err = false ∧ t.regs.h = sha256 m ∧ t.pending = s.pending

/-- R186: the digest is 32 bytes, byte `4i + k` of it bits `[31 - 8k : 24 - 8k]` of `H[i]`; in Finalized the eight
digest reads return the words whose big-endian bytes, in index order, are the digest. -/
def Obligations.DigestReadsSerialise : Prop :=
  (∀ (h : HashState) (i k : Nat) (hi : i < 8), k < 4 →
    (digestBytes h)[4 * i + k]? = some (BitVec.ofNat 8 (h[i].toNat / 256 ^ (3 - k)))) ∧
  (∀ h : HashState, (digestBytes h).length = 32) ∧
  (∀ s : State, s.regs.phase = .finalized →
    ∃ w : Vector Word 8,
      (∀ i : BitVec 3, exec (.rdDigest i) s = .next { s with resp := .readData (w[i.toNat]'(i.isLt)) }) ∧
      digestBytes s.regs.h = w.toList.flatMap bytesBe32)

/-- Derived (40_framer.md R111): how many blocks a message's padding makes, and how many of them are compressed by the
pushes. -/
def Obligations.BlockCount : Prop :=
  ∀ m : List Byte,
    (fullBlocks (paddedMessage m)).length = (m.length + 8) / 64 + 1 ∧
    (fullBlocks (paddedMessage m)).length = (fullBlocks m).length + (if 56 ≤ m.length % 64 then 2 else 1) ∧
    (fullBlocks m).length = m.length / 64

/-- Derived (40_framer.md R112): the padded length is a multiple of 64, and the length field is its last eight bytes. -/
def Obligations.PaddedMessageShape : Prop :=
  ∀ m : List Byte,
    (paddedMessage m).length % 64 = 0 ∧
    (∃ k, k ≤ 63 ∧ (m.length + k + 9) % 64 = 0 ∧
      paddedMessage m = m ++ [0x80#8] ++ List.replicate k 0x00#8 ++ bytesBe64 (BitVec.ofNat 64 (8 * m.length)))

/-! ### Schedule and compression -/

/-- Derived (00_scope.md R9): `ROTR` is the cyclic shift. -/
def Obligations.RotateIsCyclic : Prop :=
  ∀ (x : Word) (n j : Nat), 0 < n → n < 32 → j < 32 → (rotr x n).getLsbD j = x.getLsbD ((j + n) % 32)

/-- R130, R131, R150, R151: the four sigma functions, with the corner cases the rules list. -/
def Obligations.SigmaFunctions : Prop :=
  (∀ x, sigma0 x = rotr x 7 ^^^ rotr x 18 ^^^ (x >>> 3)) ∧
  (∀ x, sigma1 x = rotr x 17 ^^^ rotr x 19 ^^^ (x >>> 10)) ∧
  (∀ x, bigSigma1 x = rotr x 6 ^^^ rotr x 11 ^^^ rotr x 25) ∧
  (∀ x, bigSigma0 x = rotr x 2 ^^^ rotr x 13 ^^^ rotr x 22) ∧
  sigma0 0#32 = 0#32 ∧ sigma0 0xFFFFFFFF#32 = 0x1FFFFFFF#32 ∧ sigma0 0x80000000#32 = 0x11002000#32 ∧
  sigma1 0#32 = 0#32 ∧ sigma1 0xFFFFFFFF#32 = 0x003FFFFF#32 ∧ sigma1 0x00000001#32 = 0x0000A000#32 ∧
  bigSigma1 0#32 = 0#32 ∧ bigSigma1 0xFFFFFFFF#32 = 0xFFFFFFFF#32 ∧ bigSigma1 0x00000001#32 = 0x04200080#32 ∧
  bigSigma0 0#32 = 0#32 ∧ bigSigma0 0xFFFFFFFF#32 = 0xFFFFFFFF#32 ∧ bigSigma0 0x00000001#32 = 0x40080400#32

/-- R152 and R153, bit by bit: `Ch` chooses by `e`, `Maj` is the majority; with the rules' corner cases. -/
def Obligations.ChooseAndMajority : Prop :=
  (∀ (e f g : Word) (j : Nat), j < 32 →
    (ch e f g).getLsbD j = if e.getLsbD j then f.getLsbD j else g.getLsbD j) ∧
  (∀ (a b c : Word) (j : Nat), j < 32 →
    (maj a b c).getLsbD j = decide (2 ≤ [a.getLsbD j, b.getLsbD j, c.getLsbD j].count true)) ∧
  (∀ f g, ch 0xFFFFFFFF#32 f g = f ∧ ch 0#32 f g = g) ∧
  (∀ x y, maj x x y = x) ∧ (∀ c, maj 0#32 0xFFFFFFFF#32 c = c)

/-- R132: the first sixteen schedule words are the block's bytes read big-endian. -/
def Obligations.ScheduleStartsWithTheBlock : Prop :=
  ∀ (b : Block) (t : Nat) (ht : t < 16),
    ((expand b)[t]).toNat = b[4 * t].toNat * 2 ^ 24 + b[4 * t + 1].toNat * 2 ^ 16 + b[4 * t + 2].toNat * 2 ^ 8 +
      b[4 * t + 3].toNat

/-- R133 and R135: every later schedule word satisfies the recurrence. -/
def Obligations.ScheduleRecurrence : Prop :=
  ∀ (b : Block) (t : Nat) (_ : 16 ≤ t) (ht : t < 64),
    (expand b)[t] = (expand b)[t - 16] + sigma0 (expand b)[t - 15] + (expand b)[t - 7] + sigma1 (expand b)[t - 2]

/-- R158 with R154 to R157: `Compress` loads the working variables, runs rounds 0 to 63 in order, each one parallel
update with `K[t]` and `W[t]`, and adds the result into the accumulator word by word. -/
def Obligations.CompressFoldsSixtyFourRounds : Prop :=
  ∀ (h : HashState) (b : Block),
    let w := expand b
    let v := (List.finRange 64).foldl
      (fun v t =>
        let t1 := v.h + bigSigma1 v.e + ch v.e v.f v.g + roundConstants[t] + w[t]
        let t2 := bigSigma0 v.a + maj v.a v.b v.c
        (⟨t1 + t2, v.a, v.b, v.c, v.d + t1, v.e, v.f, v.g⟩ : Working))
      ⟨h[0], h[1], h[2], h[3], h[4], h[5], h[6], h[7]⟩
    compress h b = #v[h[0] + v.a, h[1] + v.b, h[2] + v.c, h[3] + v.d, h[4] + v.e, h[5] + v.f, h[6] + v.g, h[7] + v.h]
end

