-- ==== Sys2Proof/Laws/Decode.lean ====
section
/-! SUPPORT. The fields of a packed transaction. -/

namespace Sys2Proof

/-- The bits of a packed transaction, field by field. -/
theorem getLsbD_pack (wr : Bool) (a : BitVec 8) (d : Word) (j : Nat) :
    (pack wr a d).getLsbD j =
      if j < 32 then d.getLsbD j else if j < 40 then a.getLsbD (j - 32) else (decide (j = 40) && wr) := by
  unfold pack
  rw [BitVec.getLsbD_or, BitVec.getLsbD_or, BitVec.getLsbD_shiftLeft, BitVec.getLsbD_shiftLeft,
    BitVec.getLsbD_setWidth, BitVec.getLsbD_setWidth, BitVec.getLsbD_setWidth, BitVec.getLsbD_ofBool]
  rcases Nat.lt_or_ge j 32 with h | h
  · rw [if_pos h]; simp [h, show j < 40 by omega, show j < 41 by omega]
  · rw [if_neg (by omega), BitVec.getLsbD_of_ge d j h]
    rcases Nat.lt_or_ge j 40 with h' | h'
    · rw [if_pos h']; simp [h', show ¬ j < 32 by omega, show j < 41 by omega, show j - 32 < 41 by omega]
    · rw [if_neg (by omega), BitVec.getLsbD_of_ge a (j - 32) (by omega)]
      by_cases e : j = 40
      · simp [e]
      · simp [e, show ¬ j < 41 by omega]

@[simp] theorem wrField_pack (wr : Bool) (a : BitVec 8) (d : Word) : wrField (pack wr a d) = wr := by
  unfold wrField
  rw [getLsbD_pack]
  simp

@[simp] theorem addrField_pack (wr : Bool) (a : BitVec 8) (d : Word) : addrField (pack wr a d) = a := by
  apply BitVec.eq_of_getLsbD_eq
  intro i hi
  simp only [addrField, BitVec.getLsbD_extractLsb', getLsbD_pack]
  simp [hi, show ¬ 32 + i < 32 by omega, show 32 + i < 40 by omega]

@[simp] theorem dataField_pack (wr : Bool) (a : BitVec 8) (d : Word) : dataField (pack wr a d) = d := by
  apply BitVec.eq_of_getLsbD_eq
  intro i hi
  simp only [dataField, BitVec.getLsbD_extractLsb', getLsbD_pack]
  simp [hi]

/-- A packed transaction is its three fields. -/
theorem pack_fields (t : Packed) : pack (wrField t) (addrField t) (dataField t) = t := by
  apply BitVec.eq_of_getLsbD_eq
  intro i hi
  rw [getLsbD_pack]
  split
  · next h => simp only [dataField, BitVec.getLsbD_extractLsb']; simp [h]
  · split
    · next h h' =>
      simp only [addrField, BitVec.getLsbD_extractLsb']
      simp [show i - 32 < 8 by omega, show 32 + (i - 32) = i by omega]
    · obtain rfl : i = 40 := by omega
      simp [wrField]

/-- Two packed transactions agree when their fields do. -/
theorem pack_inj {wr wr' : Bool} {a a' : BitVec 8} {d d' : Word} :
    pack wr a d = pack wr' a' d' ↔ wr = wr' ∧ a = a' ∧ d = d' := by
  constructor
  · intro h
    exact ⟨by simpa using congrArg wrField h, by simpa using congrArg addrField h, by simpa using congrArg dataField h⟩
  · rintro ⟨rfl, rfl, rfl⟩; rfl

/-- Masking a packed transaction masks its fields. -/
theorem pack_and (wr wr' : Bool) (a a' : BitVec 8) (d d' : Word) :
    pack wr a d &&& pack wr' a' d' = pack (wr && wr') (a &&& a') (d &&& d') := by
  apply BitVec.eq_of_getLsbD_eq
  intro i _
  simp only [BitVec.getLsbD_and, getLsbD_pack]
  split
  · rfl
  · split
    · rfl
    · cases decide (i = 40) <;> simp

/-- Decoding looks at the three fields only. -/
theorem decode_pack (wr : Bool) (a : BitVec 8) (d : Word) :
    decode (pack wr a d) =
      if a.extractLsb' 0 2 ≠ 0b00#2 then .error .misalignedOffset
      else if wr then .ok (decodeWrite a d) else .ok (decodeRead a) := by
  simp [decode]

/-- R77 in both its spellings: the valid command words are 0, 1 and 2. -/
theorem validCommandWord_iff (d : Word) : validCommandWord d = true ↔ d = 0x0#32 ∨ d = 0x1#32 ∨ d = 0x2#32 := by
  have key : ∀ v : BitVec 8, (d.extractLsb' 8 24 = 0#24 ∧ d.extractLsb' 0 8 = v) ↔ d = v.setWidth 32 := by
    intro v
    rw [← BitVec.toNat_inj, ← BitVec.toNat_inj, ← BitVec.toNat_inj]
    simp only [BitVec.extractLsb'_toNat, BitVec.toNat_setWidth, BitVec.toNat_ofNat, Nat.shiftRight_eq_div_pow]
    have := d.isLt
    have := v.isLt
    omega
  have k0 := key 0x00#8
  have k1 := key 0x01#8
  have k2 := key 0x02#8
  simp only [validCommandWord, Bool.and_eq_true, Bool.or_eq_true, beq_iff_eq]
  rw [and_or_left, and_or_left, k0, k1, k2]
  simp [or_assoc]

/-- The offset of a digest register: aligned, in the digest group, none of the offsets before it (R74). -/
theorem digestOffset_fields : ∀ i : BitVec 3,
    let a := 0x20#8 ||| i.setWidth 8 <<< 2
    a.extractLsb' 0 2 = 0b00#2 ∧ a ≠ 0x00#8 ∧ a ≠ 0x04#8 ∧ a ≠ 0x08#8 ∧ a ≠ 0x0C#8 ∧ a ≠ 0x10#8 ∧ a ≠ 0x14#8 ∧
      a ≠ 0x18#8 ∧ a ≠ 0x1C#8 ∧ a.extractLsb' 5 3 = 0b001#3 ∧ a.extractLsb' 2 3 = i := by
  decide

/-- The offset of a reserved slot, for the group `g = A[7:6]`: aligned, past every register. -/
theorem reservedOffset_fields : ∀ (g : BitVec 2) (x : BitVec 4), g ≠ 0b00#2 →
    let a := (g.setWidth 8 <<< 6) ||| x.setWidth 8 <<< 2
    a.extractLsb' 0 2 = 0b00#2 ∧ a ≠ 0x00#8 ∧ a ≠ 0x04#8 ∧ a ≠ 0x08#8 ∧ a ≠ 0x0C#8 ∧ a ≠ 0x10#8 ∧ a ≠ 0x14#8 ∧
      a ≠ 0x18#8 ∧ a ≠ 0x1C#8 ∧ a.extractLsb' 5 3 ≠ 0b001#3 ∧ a.extractLsb' 6 2 = g ∧ a.extractLsb' 2 4 = x := by
  decide

/-- The aligned offsets of the window, group by group (20_memory.md R52). -/
theorem alignedOffset_cases : ∀ a : BitVec 8, a.extractLsb' 0 2 = 0b00#2 →
    a = 0x00#8 ∨ a = 0x04#8 ∨ a = 0x08#8 ∨ a = 0x0C#8 ∨ a = 0x10#8 ∨ a = 0x14#8 ∨ a = 0x18#8 ∨ a = 0x1C#8 ∨
      a = 0x20#8 ||| (a.extractLsb' 2 3).setWidth 8 <<< 2 ∨
      (a.extractLsb' 6 2 ≠ 0b00#2 ∧
        a = ((a.extractLsb' 6 2).setWidth 8 <<< 6) ||| (a.extractLsb' 2 4).setWidth 8 <<< 2) := by
  decide +kernel

/-- A write to a digest offset decodes to its row. -/
theorem decodeWrite_digest (i : BitVec 3) (d : Word) :
    decodeWrite (0x20#8 ||| i.setWidth 8 <<< 2) d = .wrDigest i d := by
  obtain ⟨_, h1, h2, h3, h4, h5, h6, h7, h8, h9, h10⟩ := digestOffset_fields i
  unfold decodeWrite
  rw [if_neg h1, if_neg h2, if_neg h3, if_neg h4, if_neg h5, if_neg h6, if_neg h7, if_neg h8, if_pos h9, h10]

/-- A read of a digest offset decodes to its row. -/
theorem decodeRead_digest (i : BitVec 3) : decodeRead (0x20#8 ||| i.setWidth 8 <<< 2) = .rdDigest i := by
  obtain ⟨_, h1, h2, h3, h4, h5, h6, h7, h8, h9, h10⟩ := digestOffset_fields i
  unfold decodeRead
  rw [if_neg h1, if_neg h2, if_neg h3, if_neg h4, if_neg h5, if_neg h6, if_neg h7, if_neg h8, if_pos h9, h10]

/-- A write to a reserved offset decodes to the row of its group. -/
theorem decodeWrite_reserved (g : BitVec 2) (hg : g ≠ 0b00#2) (x : BitVec 4) (d : Word) :
    decodeWrite ((g.setWidth 8 <<< 6) ||| x.setWidth 8 <<< 2) d =
      if g = 0b01#2 then .wrRsv40 x d else if g = 0b10#2 then .wrRsv80 x d else .wrRsvC0 x d := by
  obtain ⟨_, h1, h2, h3, h4, h5, h6, h7, h8, h9, h10, h11⟩ := reservedOffset_fields g x hg
  unfold decodeWrite
  rw [if_neg h1, if_neg h2, if_neg h3, if_neg h4, if_neg h5, if_neg h6, if_neg h7, if_neg h8, if_neg h9, h10, h11]

/-- A read of a reserved offset decodes to the row of its group. -/
theorem decodeRead_reserved (g : BitVec 2) (hg : g ≠ 0b00#2) (x : BitVec 4) :
    decodeRead ((g.setWidth 8 <<< 6) ||| x.setWidth 8 <<< 2) =
      if g = 0b01#2 then .rdRsv40 x else if g = 0b10#2 then .rdRsv80 x else .rdRsvC0 x := by
  obtain ⟨_, h1, h2, h3, h4, h5, h6, h7, h8, h9, h10, h11⟩ := reservedOffset_fields g x hg
  unfold decodeRead
  rw [if_neg h1, if_neg h2, if_neg h3, if_neg h4, if_neg h5, if_neg h6, if_neg h7, if_neg h8, if_neg h9, h10, h11]

end Sys2Proof
end

