-- ==== Sys2Proof/Laws/State.lean ====
section
/-! SUPPORT. One lemma per field per update of the state, so that no later proof unfolds a record update. -/

namespace Sys2Proof.Machine

section
variable (s : State) (r : Regs) (v : Word) (q : BusRequest)

@[simp] theorem finishWrite_regs : (s.finishWrite r).regs = r := rfl
@[simp] theorem finishWrite_resp : (s.finishWrite r).resp = .writeDone := rfl
@[simp] theorem finishWrite_pending : (s.finishWrite r).pending = s.pending := rfl
@[simp] theorem finishRead_regs : (s.finishRead v).regs = s.regs := rfl
@[simp] theorem finishRead_resp : (s.finishRead v).resp = .readData v := rfl
@[simp] theorem finishRead_pending : (s.finishRead v).pending = s.pending := rfl
@[simp] theorem powerOnReset_regs : s.powerOnReset.regs = Regs.reset := rfl
@[simp] theorem powerOnReset_resp : s.powerOnReset.resp = .none := rfl
@[simp] theorem powerOnReset_pending : s.powerOnReset.pending = s.pending := rfl
@[simp] theorem present_regs : (s.present q).regs = s.regs := rfl
@[simp] theorem present_resp : (s.present q).resp = s.resp := rfl
@[simp] theorem present_pending : (s.present q).pending = .access q :: s.pending := rfl
@[simp] theorem issue_regs (is : List Instr) : (s.issue is).regs = s.regs := rfl
@[simp] theorem issue_resp (is : List Instr) : (s.issue is).resp = s.resp := rfl

/-- What CMD.RESET leaves is the reset table. -/
@[simp] theorem resetRegs_eq : resetRegs r = Regs.reset := rfl

@[simp] theorem reset_h : Regs.reset.h = iv := rfl
@[simp] theorem reset_phase : Regs.reset.phase = .idle := rfl
@[simp] theorem reset_err : Regs.reset.err = false := rfl
@[simp] theorem reset_errcode : Regs.reset.errcode = 0#4 := rfl
@[simp] theorem reset_mlen : Regs.reset.mlen = 0#61 := rfl
@[simp] theorem reset_bytecnt : Regs.reset.bytecnt = 0#64 := rfl
@[simp] theorem reset_buf : Regs.reset.buf = zeroBlock := rfl

@[simp] theorem compressBuffer_h : (compressBuffer r).h = compress r.h r.buf := rfl
@[simp] theorem compressBuffer_phase : (compressBuffer r).phase = r.phase := rfl
@[simp] theorem compressBuffer_err : (compressBuffer r).err = r.err := rfl
@[simp] theorem compressBuffer_errcode : (compressBuffer r).errcode = r.errcode := rfl
@[simp] theorem compressBuffer_mlen : (compressBuffer r).mlen = r.mlen := rfl
@[simp] theorem compressBuffer_bytecnt : (compressBuffer r).bytecnt = r.bytecnt := rfl
@[simp] theorem compressBuffer_buf : (compressBuffer r).buf = zeroBlock := rfl

@[simp] theorem storeByte_h (b : Byte) : (storeByte b r).h = r.h := rfl
@[simp] theorem storeByte_phase (b : Byte) : (storeByte b r).phase = r.phase := rfl
@[simp] theorem storeByte_err (b : Byte) : (storeByte b r).err = r.err := rfl
@[simp] theorem storeByte_errcode (b : Byte) : (storeByte b r).errcode = r.errcode := rfl
@[simp] theorem storeByte_mlen (b : Byte) : (storeByte b r).mlen = r.mlen := rfl
@[simp] theorem storeByte_bytecnt (b : Byte) : (storeByte b r).bytecnt = r.bytecnt + 1#64 := rfl
@[simp] theorem storeByte_buf (b : Byte) : (storeByte b r).buf = r.buf.set (fill r) b (fill_lt r) := rfl

@[simp] theorem placePad_h : (placePad r).h = r.h := rfl
@[simp] theorem placePad_phase : (placePad r).phase = r.phase := rfl
@[simp] theorem placePad_err : (placePad r).err = r.err := rfl
@[simp] theorem placePad_errcode : (placePad r).errcode = r.errcode := rfl
@[simp] theorem placePad_mlen : (placePad r).mlen = r.mlen := rfl
@[simp] theorem placePad_bytecnt : (placePad r).bytecnt = r.bytecnt := rfl
@[simp] theorem placePad_buf : (placePad r).buf = r.buf.set (fill r) 0x80#8 (fill_lt r) := rfl

@[simp] theorem placeLength_h : (placeLength r).h = r.h := rfl
@[simp] theorem placeLength_phase : (placeLength r).phase = r.phase := rfl
@[simp] theorem placeLength_err : (placeLength r).err = r.err := rfl
@[simp] theorem placeLength_errcode : (placeLength r).errcode = r.errcode := rfl
@[simp] theorem placeLength_mlen : (placeLength r).mlen = r.mlen := rfl
@[simp] theorem placeLength_bytecnt : (placeLength r).bytecnt = r.bytecnt := rfl
@[simp] theorem placeLength_buf : (placeLength r).buf = withLengthField r.buf r.mlen := rfl

@[simp] theorem finalize_phase : (finalize r).phase = .finalized := rfl
@[simp] theorem finalize_h : (finalize r).h = (pad r).h := rfl
@[simp] theorem finalize_err : (finalize r).err = (pad r).err := rfl
@[simp] theorem finalize_errcode : (finalize r).errcode = (pad r).errcode := rfl
@[simp] theorem finalize_mlen : (finalize r).mlen = (pad r).mlen := rfl
@[simp] theorem finalize_bytecnt : (finalize r).bytecnt = (pad r).bytecnt := rfl
@[simp] theorem finalize_buf : (finalize r).buf = (pad r).buf := rfl

end

end Sys2Proof.Machine
end

