-- ==== Sys2Proof/Laws/Ops.lean ====
section
/-! SUPPORT. What each shared operation can do, said once: later proofs cite these and do not unfold the operation. -/

namespace Sys2Proof.Machine

/-! ### Recording an error and the admission checks -/

theorem recordError_of_err {r : Regs} (c : ErrCause) (h : r.err = true) : recordError c r = r := by
  simp [recordError, h]

theorem recordError_of_ok {r : Regs} (c : ErrCause) (h : r.err = false) :
    recordError c r = { r with err := true, errcode := errCauseCode c } := by
  simp [recordError, h]

@[simp] theorem recordError_phase (c : ErrCause) (r : Regs) : (recordError c r).phase = r.phase := by
  unfold recordError; split <;> rfl
@[simp] theorem recordError_h (c : ErrCause) (r : Regs) : (recordError c r).h = r.h := by
  unfold recordError; split <;> rfl
@[simp] theorem recordError_mlen (c : ErrCause) (r : Regs) : (recordError c r).mlen = r.mlen := by
  unfold recordError; split <;> rfl
@[simp] theorem recordError_bytecnt (c : ErrCause) (r : Regs) : (recordError c r).bytecnt = r.bytecnt := by
  unfold recordError; split <;> rfl
@[simp] theorem recordError_buf (c : ErrCause) (r : Regs) : (recordError c r).buf = r.buf := by
  unfold recordError; split <;> rfl
@[simp] theorem recordError_err (c : ErrCause) (r : Regs) : (recordError c r).err = true := by
  unfold recordError; split <;> simp_all

@[simp] theorem admitted_accept (f : Regs → Regs) (r : Regs) : admitted .accept f r = f r := rfl
@[simp] theorem admitted_refuse (c : ErrCause) (f : Regs → Regs) (r : Regs) :
    admitted (.refuse c) f r = recordError c r := rfl
@[simp] theorem admitted_frozen (f : Regs → Regs) (r : Regs) : admitted .frozen f r = r := rfl

/-- A push is accepted exactly when no error is recorded, the core is not Finalized and the bytes fit (R103). -/
theorem pushAdmit_eq_accept {n : Nat} {r : Regs} :
    pushAdmit n r = .accept ↔
      r.err = false ∧ r.phase ≠ .finalized ∧ r.bytecnt.toNat + n ≤ r.mlen.toNat := by
  unfold pushAdmit; split_ifs <;> simp_all

/-- `CMD.FINAL` is accepted exactly when no error is recorded, the core is not Finalized and every declared byte has
been pushed (R184). -/
theorem finalAdmit_eq_accept {r : Regs} :
    finalAdmit r = .accept ↔ r.err = false ∧ r.phase ≠ .finalized ∧ r.bytecnt.toNat = r.mlen.toNat := by
  unfold finalAdmit; split_ifs <;> simp_all

/-- A length write is accepted exactly in Idle with no error recorded (R38). -/
theorem mlenAdmit_eq_accept {r : Regs} : mlenAdmit r = .accept ↔ r.err = false ∧ r.phase = .idle := by
  unfold mlenAdmit; split_ifs <;> simp_all

/-- While `ERR = 1` every check answers "ignored" (R213). -/
theorem admissions_frozen {r : Regs} (h : r.err = true) :
    (∀ n, pushAdmit n r = .frozen) ∧ finalAdmit r = .frozen ∧ mlenAdmit r = .frozen := by
  simp [pushAdmit, finalAdmit, mlenAdmit, h]

/-! ### Storing bytes -/

/-- The fill level after one byte. -/
theorem fill_storeByte (b : Byte) (r : Regs) : fill (storeByte b r) = (fill r + 1) % 64 := by
  simp only [fill, storeByte_bytecnt, BitVec.toNat_add, BitVec.toNat_ofNat]
  omega

/-- With room left, `append` only stores the byte. -/
theorem append_of_room (b : Byte) {r : Regs} (h : fill r < 63) : append b r = storeByte b r := by
  unfold append
  rw [fill_storeByte, if_neg (by omega)]

/-- The byte that fills the block also compresses it. -/
theorem append_of_last (b : Byte) {r : Regs} (h : fill r = 63) :
    append b r = compressBuffer (storeByte b r) := by
  unfold append
  rw [fill_storeByte, if_pos (by omega)]

@[simp] theorem append_phase (b : Byte) (r : Regs) : (append b r).phase = r.phase := by
  unfold append; split <;> rfl
@[simp] theorem append_err (b : Byte) (r : Regs) : (append b r).err = r.err := by
  unfold append; split <;> rfl
@[simp] theorem append_errcode (b : Byte) (r : Regs) : (append b r).errcode = r.errcode := by
  unfold append; split <;> rfl
@[simp] theorem append_mlen (b : Byte) (r : Regs) : (append b r).mlen = r.mlen := by
  unfold append; split <;> rfl
@[simp] theorem append_bytecnt (b : Byte) (r : Regs) : (append b r).bytecnt = r.bytecnt + 1#64 := by
  unfold append; split <;> rfl

/-- `append` does not look at the phase. -/
theorem append_withPhase (b : Byte) (r : Regs) (p : Phase) :
    append b { r with phase := p } = { append b r with phase := p } := by
  unfold append
  have e : fill (storeByte b { r with phase := p }) = fill (storeByte b r) := rfl
  rw [e]
  split <;> rfl

@[simp] theorem absorb_phase (bs : List Byte) (r : Regs) : (absorb bs r).phase = .absorbing := rfl

/-- Appending bytes leaves the status fields and the declared length alone, and counts the bytes. -/
theorem foldl_append_frame (bs : List Byte) (r : Regs) :
    (bs.foldl (fun r b => append b r) r).err = r.err ∧
    (bs.foldl (fun r b => append b r) r).errcode = r.errcode ∧
    (bs.foldl (fun r b => append b r) r).mlen = r.mlen ∧
    (bs.foldl (fun r b => append b r) r).bytecnt = r.bytecnt + BitVec.ofNat 64 bs.length := by
  induction bs generalizing r with
  | nil => simp
  | cons b bs ih =>
    obtain ⟨h1, h2, h3, h4⟩ := ih (append b r)
    refine ⟨by simpa using h1, by simpa using h2, by simpa using h3, ?_⟩
    simp only [List.foldl_cons, List.length_cons]
    rw [h4, append_bytecnt, BitVec.add_assoc]
    congr 1
    apply BitVec.eq_of_toNat_eq
    simp [Nat.add_comm]

@[simp] theorem absorb_err (bs : List Byte) (r : Regs) : (absorb bs r).err = r.err := (foldl_append_frame bs r).1
@[simp] theorem absorb_errcode (bs : List Byte) (r : Regs) : (absorb bs r).errcode = r.errcode :=
  (foldl_append_frame bs r).2.1
@[simp] theorem absorb_mlen (bs : List Byte) (r : Regs) : (absorb bs r).mlen = r.mlen :=
  (foldl_append_frame bs r).2.2.1
@[simp] theorem absorb_bytecnt (bs : List Byte) (r : Regs) :
    (absorb bs r).bytecnt = r.bytecnt + BitVec.ofNat 64 bs.length := (foldl_append_frame bs r).2.2.2

/-- The cleared buffer is zero everywhere. -/
@[simp] theorem zeroBlock_get (k : Nat) (hk : k < 64) : zeroBlock[k] = 0x00#8 := by
  simp [zeroBlock]

/-- If no byte fills the block, `H` keeps its value and the buffer its bytes below the fill level. -/
theorem foldl_append_of_room (bs : List Byte) (r : Regs) (h : fill r + bs.length < 64) :
    (bs.foldl (fun r b => append b r) r).h = r.h ∧
    fill (bs.foldl (fun r b => append b r) r) = fill r + bs.length := by
  induction bs generalizing r with
  | nil => simp
  | cons b bs ih =>
    simp only [List.length_cons] at h ⊢
    have hroom : append b r = storeByte b r := append_of_room b (by omega)
    have hfill : fill (append b r) = fill r + 1 := by
      rw [hroom, fill_storeByte]; omega
    obtain ⟨h1, h2⟩ := ih (append b r) (by omega)
    rw [List.foldl_cons]
    exact ⟨by rw [h1, hroom, storeByte_h], by rw [h2]; omega⟩

/-! ### Padding -/

@[simp] theorem pad_phase (r : Regs) : (pad r).phase = r.phase := by unfold pad; split <;> rfl
@[simp] theorem pad_err (r : Regs) : (pad r).err = r.err := by unfold pad; split <;> rfl
@[simp] theorem pad_errcode (r : Regs) : (pad r).errcode = r.errcode := by unfold pad; split <;> rfl
@[simp] theorem pad_mlen (r : Regs) : (pad r).mlen = r.mlen := by unfold pad; split <;> rfl
@[simp] theorem pad_bytecnt (r : Regs) : (pad r).bytecnt = r.bytecnt := by unfold pad; split <;> rfl
@[simp] theorem pad_buf (r : Regs) : (pad r).buf = zeroBlock := by unfold pad; split <;> rfl

/-! ### The schedule and the rounds -/

@[simp] theorem rounds_zero (w : Vector Word 64) (v : Working) (h : 0 ≤ 64) : rounds w v 0 h = v := rfl

theorem rounds_succ (w : Vector Word 64) (v : Working) (n : Nat) (h : n + 1 ≤ 64) :
    rounds w v (n + 1) h = roundStep roundConstants[n] w[n] (rounds w v n (by omega)) := rfl

/-- Extending the schedule keeps the words already there. -/
theorem schedule_succ_get (b : Block) (n t : Nat) (ht : t < 16 + n) :
    (schedule b (n + 1))[t]'(by omega) = (schedule b n)[t] := by
  simp only [schedule]
  rw [Vector.getElem_push_lt]

/-- A schedule word does not depend on how far the schedule was extended after it. -/
theorem schedule_get_stable (b : Block) (n m t : Nat) (ht : t < 16 + n) :
    (schedule b (n + m))[t]'(by omega) = (schedule b n)[t] := by
  induction m with
  | zero => rfl
  | succ m ih => exact (schedule_succ_get b (n + m) t (by omega)).trans ih

/-- The word an extension adds, from the four words the recurrence names (R133). -/
theorem schedule_last (b : Block) (n : Nat) :
    (schedule b (n + 1))[16 + n]'(by omega) =
      (schedule b n)[n] + sigma0 (schedule b n)[n + 1] + (schedule b n)[n + 9] + sigma1 (schedule b n)[n + 14] := by
  simp only [schedule]
  exact Vector.getElem_push_eq

end Sys2Proof.Machine
end

