-- ==== Sys2Proof/Laws/Message.lean ====
section
/-! SUPPORT. The reference reading of a message as blocks, and how the buffer and the accumulator follow it byte by byte
(40_framer.md R104, R109, R112; 42_compression.md R159). -/

namespace Sys2Proof.Machine

@[simp] theorem blockAt_get (bs : List Byte) (j k : Nat) (hk : k < 64) :
    (blockAt bs j)[k] = bs.getD (64 * j + k) 0x00#8 := by
  simp [blockAt]

/-- A block that lies wholly in the first part does not see the second. -/
theorem blockAt_append_left (bs cs : List Byte) (j : Nat) (h : 64 * j + 64 ≤ bs.length) :
    blockAt (bs ++ cs) j = blockAt bs j := by
  apply Vector.ext
  intro k hk
  simp [List.getElem?_append, show 64 * j + k < bs.length by omega]

/-- The full blocks of the first part are the first full blocks of the whole. -/
theorem fullBlocks_append (bs cs : List Byte) :
    fullBlocks (bs ++ cs) = fullBlocks bs ++
      (List.range' (bs.length / 64) ((bs ++ cs).length / 64 - bs.length / 64)).map (blockAt (bs ++ cs)) := by
  have hle : bs.length / 64 ≤ (bs ++ cs).length / 64 := Nat.div_le_div_right (by simp)
  have hr : List.range ((bs ++ cs).length / 64) =
      List.range (bs.length / 64) ++ List.range' (bs.length / 64) ((bs ++ cs).length / 64 - bs.length / 64) := by
    rw [List.range_eq_range', List.range_eq_range']
    have := List.range'_append_1 (s := 0) (m := bs.length / 64) (n := (bs ++ cs).length / 64 - bs.length / 64)
    rw [Nat.zero_add, Nat.add_sub_cancel' hle] at this
    exact this.symm
  unfold fullBlocks
  rw [hr, List.map_append]
  refine congrArg (· ++ _) (List.map_congr_left ?_)
  intro j hj
  rw [List.mem_range] at hj
  exact blockAt_append_left bs cs j (by omega)

/-- Storing the next byte into the tail block. -/
theorem tailBlock_set (m : List Byte) (b : Byte) (h : m.length % 64 < 64) :
    (tailBlock m).set (m.length % 64) b h = blockAt (m ++ [b]) (m.length / 64) := by
  apply Vector.ext
  intro k hk
  have hL := Nat.div_add_mod m.length 64
  rw [Vector.getElem_set, blockAt_get]
  split
  · next e =>
    subst e
    rw [hL]
    simp
  · next e =>
    rw [tailBlock, blockAt_get]
    by_cases hlt : 64 * (m.length / 64) + k < m.length
    · simp [List.getElem?_append, hlt]
    · have h1 : m.length ≤ 64 * (m.length / 64) + k := by omega
      have h2 : (m ++ [b]).length ≤ 64 * (m.length / 64) + k := by simp; omega
      simp only [List.getD_eq_getElem?_getD, List.getElem?_eq_none h1, List.getElem?_eq_none h2]

/-- A byte that does not fill the block leaves the hashed blocks alone. -/
theorem hashBlocks_snoc_of_room (m : List Byte) (b : Byte) (h : m.length % 64 < 63) :
    hashBlocks (m ++ [b]) = hashBlocks m := by
  unfold hashBlocks
  rw [fullBlocks_append]
  have : (m ++ [b]).length / 64 - m.length / 64 = 0 := by simp; omega
  rw [this]; simp

/-- The byte that fills the block adds one compression of it. -/
theorem hashBlocks_snoc_of_last (m : List Byte) (b : Byte) (h : m.length % 64 = 63) :
    hashBlocks (m ++ [b]) = compress (hashBlocks m) (blockAt (m ++ [b]) (m.length / 64)) := by
  unfold hashBlocks
  rw [fullBlocks_append]
  have : (m ++ [b]).length / 64 - m.length / 64 = 1 := by simp; omega
  rw [this]; simp

/-- The block of a byte string past its end is zero. -/
theorem blockAt_past (bs : List Byte) (j : Nat) (h : bs.length ≤ 64 * j) : blockAt bs j = zeroBlock := by
  apply Vector.ext
  intro k hk
  rw [blockAt_get, zeroBlock_get, List.getD_eq_getElem?_getD, List.getElem?_eq_none (by omega)]
  rfl

/-- The registers, outside Finalized, have absorbed exactly the bytes `m`. -/
structure Absorbed (m : List Byte) (r : Regs) : Prop where
  count : r.bytecnt.toNat = m.length
  hash : r.h = hashBlocks m
  tail : r.buf = tailBlock m

theorem Absorbed.fill_eq {m : List Byte} {r : Regs} (h : Absorbed m r) : fill r = m.length % 64 := by
  rw [fill, h.count]

/-- The reset registers have absorbed nothing. -/
theorem absorbed_nil {r : Regs} (hc : r.bytecnt.toNat = 0) (hh : r.h = iv) (hb : r.buf = zeroBlock) : Absorbed [] r :=
  ⟨by simpa using hc, by rw [hh]; rfl, by rw [hb, tailBlock, blockAt_past _ _ (by simp)]⟩

/-- `Append` absorbs one byte. -/
theorem Absorbed.append {m : List Byte} {r : Regs} (h : Absorbed m r) (b : Byte) (hb : m.length + 1 < 2 ^ 64) :
    Absorbed (m ++ [b]) (append b r) := by
  have hf := h.fill_eq
  have hset : (storeByte b r).buf = blockAt (m ++ [b]) (m.length / 64) := by
    rw [storeByte_buf, ← tailBlock_set m b (Nat.mod_lt _ (by decide))]
    simp only [h.tail, hf]
  have hcount : (Machine.append b r).bytecnt.toNat = (m ++ [b]).length := by
    rw [append_bytecnt, BitVec.toNat_add, h.count]
    simp; omega
  refine ⟨hcount, ?_, ?_⟩
  · rcases Nat.lt_or_ge (m.length % 64) 63 with hlt | hge
    · rw [append_of_room b (by omega), storeByte_h, h.hash, hashBlocks_snoc_of_room m b hlt]
    · have e : m.length % 64 = 63 := by have := Nat.mod_lt m.length (show 0 < 64 by decide); omega
      rw [append_of_last b (by omega), compressBuffer_h, hset, storeByte_h, h.hash, hashBlocks_snoc_of_last m b e]
  · rcases Nat.lt_or_ge (m.length % 64) 63 with hlt | hge
    · rw [append_of_room b (by omega), hset, tailBlock]
      refine congrArg (blockAt _) ?_
      simp; omega
    · have e : m.length % 64 = 63 := by have := Nat.mod_lt m.length (show 0 < 64 by decide); omega
      rw [append_of_last b (by omega), compressBuffer_buf, tailBlock, blockAt_past]
      simp; omega

/-- Appending a list of bytes absorbs them in order. -/
theorem Absorbed.foldl_append {m : List Byte} {r : Regs} (h : Absorbed m r) (bs : List Byte)
    (hb : m.length + bs.length < 2 ^ 64) : Absorbed (m ++ bs) (bs.foldl (fun r b => Machine.append b r) r) := by
  induction bs generalizing m r with
  | nil => simpa using h
  | cons b bs ih =>
    simp only [List.length_cons] at hb
    simpa using ih (h.append b (by omega)) (by simp; omega)

/-! ### Padding -/

/-- The number of zero bytes the padding of an `L`-byte message has (R112). -/
def zeroCount (L : Nat) : Nat := (119 - L % 64) % 64

theorem paddedMessage_eq (m : List Byte) :
    paddedMessage m = m ++ ([0x80#8] ++ (List.replicate (zeroCount m.length) 0x00#8 ++
      bytesBe64 (BitVec.ofNat 64 (8 * m.length)))) := rfl

theorem paddedMessage_length (m : List Byte) : (paddedMessage m).length = m.length + zeroCount m.length + 9 := by
  simp [paddedMessage, bytesBe64, zeroCount]; omega

/-- The bytes of a padded message, position by position. -/
theorem paddedMessage_getD (m : List Byte) (p : Nat) :
    (paddedMessage m).getD p 0x00#8 =
      if p < m.length then m.getD p 0x00#8
      else if p = m.length then 0x80#8
      else if p < m.length + 1 + zeroCount m.length then 0x00#8
      else (bytesBe64 (BitVec.ofNat 64 (8 * m.length))).getD (p - (m.length + 1 + zeroCount m.length)) 0x00#8 := by
  rw [paddedMessage_eq]
  simp only [List.getD_eq_getElem?_getD]
  split
  · next h => rw [List.getElem?_append_left h]
  · next h =>
    rw [List.getElem?_append_right (by omega)]
    split
    · next e => simp [e]
    · next e =>
      rw [List.getElem?_append_right (by simp; omega)]
      split
      · next h2 =>
        rw [List.getElem?_append_left (by simp; omega), List.getElem?_replicate, if_pos (by simp; omega)]
        rfl
      · next h2 =>
        rw [List.getElem?_append_right (by simp; omega)]
        refine congrArg (fun q : Nat => Option.getD ((bytesBe64 (BitVec.ofNat 64 (8 * m.length)))[q]?) 0x00#8) ?_
        simp; omega

/-- The bytes of the length field, by position (R10). -/
theorem bytesBe64_getD (v : DWord) (k : Nat) (hk : k < 8) :
    (bytesBe64 v).getD k 0x00#8 = v.extractLsb' (8 * (7 - k)) 8 := by
  interval_cases k <;> rfl

/-- A block with its length field stored, position by position. -/
theorem withLengthField_get (b : Block) (m : Length) (k : Nat) (hk : k < 64) :
    (withLengthField b m)[k] = if 56 ≤ k then (bitLength m).extractLsb' (8 * (63 - k)) 8 else b[k] := by
  unfold withLengthField
  simp only [Vector.getElem_set]
  by_cases h : 56 ≤ k
  · rw [if_pos h]
    interval_cases k <;> rfl
  · rw [if_neg h]
    simp only [show (63 = k) = False by simp; omega, show (62 = k) = False by simp; omega,
      show (61 = k) = False by simp; omega, show (60 = k) = False by simp; omega,
      show (59 = k) = False by simp; omega, show (58 = k) = False by simp; omega,
      show (57 = k) = False by simp; omega, show (56 = k) = False by simp; omega, if_false]

/-- The length field of the machine is that of the padded message. -/
theorem bitLength_eq {m : Length} {L : Nat} (h : m.toNat = L) : bitLength m = BitVec.ofNat 64 (8 * L) := by
  apply BitVec.eq_of_toNat_eq
  simp [bitLength, ← h]; omega

/-- The last data block with its pad byte, position by position: what the buffer holds once the pad byte is placed. -/
theorem Absorbed.placePad_get {m : List Byte} {r : Regs} (h : Absorbed m r) (k : Nat) (hk : k < 64)
    (hz : 64 * (m.length / 64) + k < m.length + 1 + zeroCount m.length) :
    (placePad r).buf[k] = (paddedMessage m).getD (64 * (m.length / 64) + k) 0x00#8 := by
  have hf := h.fill_eq
  have hL := Nat.div_add_mod m.length 64
  rw [paddedMessage_getD, placePad_buf, Vector.getElem_set]
  by_cases e : fill r = k
  · rw [if_pos e, if_neg (by omega), if_pos (by omega)]
  · rw [if_neg e]
    simp only [h.tail, tailBlock, blockAt_get]
    by_cases hlt : 64 * (m.length / 64) + k < m.length
    · rw [if_pos hlt]
    · rw [if_neg hlt, if_neg (by omega), if_pos hz, List.getD_eq_getElem?_getD, List.getElem?_eq_none (by omega)]
      rfl

/-- The length field of the machine's last block is the last eight bytes of the padded message. -/
theorem lengthField_get {m : List Byte} {l : Length} (hm : l.toNat = m.length) (q k : Nat) (h56 : 56 ≤ k) (hk : k < 64)
    (hq : 64 * q + 56 = m.length + 1 + zeroCount m.length) :
    (bitLength l).extractLsb' (8 * (63 - k)) 8 = (paddedMessage m).getD (64 * q + k) 0x00#8 := by
  rw [paddedMessage_getD, if_neg (by omega), if_neg (by omega), if_neg (by omega),
    show 64 * q + k - (m.length + 1 + zeroCount m.length) = k - 56 by omega, bytesBe64_getD _ _ (by omega),
    bitLength_eq hm, show 8 * (63 - k) = 8 * (7 - (k - 56)) by omega]

/-- `Pad` turns the absorbed bytes into the hash of the whole padded message (R109, R112, R159). -/
theorem Absorbed.pad_h {m : List Byte} {r : Regs} (h : Absorbed m r) (hm : r.mlen.toNat = m.length) :
    (pad r).h = sha256 m := by
  have hf := h.fill_eq
  have hL := Nat.div_add_mod m.length 64
  have hlen := paddedMessage_length m
  have hmod := Nat.mod_lt m.length (show 0 < 64 by decide)
  have hsplit := fullBlocks_append m ([0x80#8] ++ (List.replicate (zeroCount m.length) 0x00#8 ++
      bytesBe64 (BitVec.ofNat 64 (8 * m.length))))
  rw [← paddedMessage_eq] at hsplit
  have hh : (fullBlocks m).foldl compress iv = r.h := h.hash.symm
  unfold sha256 hashBlocks
  rw [hsplit, List.foldl_append, hh]
  unfold pad padThreshold
  by_cases hge : 56 ≤ m.length % 64
  · have hz : zeroCount m.length = 119 - m.length % 64 := by unfold zeroCount; omega
    have hn : (paddedMessage m).length / 64 - m.length / 64 = 2 := by omega
    rw [hn, if_pos (by omega)]
    simp only [List.range'_succ, List.range'_zero, List.map_cons, List.map_nil, List.foldl_cons, List.foldl_nil,
      compressBuffer_h, placeLength_h, placeLength_buf, placePad_h, compressBuffer_buf, compressBuffer_mlen,
      placePad_mlen]
    have hfirst : (placePad r).buf = blockAt (paddedMessage m) (m.length / 64) := by
      apply Vector.ext
      intro k hk
      rw [blockAt_get, h.placePad_get k hk (by omega)]
    rw [hfirst]
    refine congrArg (compress _) (Vector.ext ?_)
    intro k hk
    rw [withLengthField_get, blockAt_get]
    by_cases h56 : 56 ≤ k
    · rw [if_pos h56, lengthField_get hm (m.length / 64 + 1) k h56 hk (by omega)]
    · rw [if_neg h56, zeroBlock_get, paddedMessage_getD, if_neg (by omega), if_neg (by omega), if_pos (by omega)]
  · have hz : zeroCount m.length = 55 - m.length % 64 := by unfold zeroCount; omega
    have hn : (paddedMessage m).length / 64 - m.length / 64 = 1 := by omega
    rw [hn, if_neg (by omega)]
    simp only [List.range'_succ, List.range'_zero, List.map_cons, List.map_nil, List.foldl_cons, List.foldl_nil,
      compressBuffer_h, placeLength_h, placeLength_buf, placePad_h, placePad_mlen]
    refine congrArg (compress _) (Vector.ext ?_)
    intro k hk
    rw [withLengthField_get, blockAt_get]
    by_cases h56 : 56 ≤ k
    · rw [if_pos h56, lengthField_get hm (m.length / 64) k h56 hk (by omega)]
    · rw [if_neg h56, h.placePad_get k hk (by omega)]

end Sys2Proof.Machine
end

