-- ==== Sys2Proof/Laws/PerInstr.lean ====
section
/-! SUPPORT. The statements made per instruction, one lemma a constructor. `EncodeMatchesTable`: the encoding of an
instruction agrees with its row of 30_encoding.md R86 on the row's mask. -/

namespace Sys2Proof.Laws

/-- The encoding of `i` lies in the row of R86 that the instruction stands for. -/
def EncodeMatchesTable.Statement (i : Instr) : Prop :=
  (tableRow i).covers (encode i)

/-- A row with the full `Wr` and `A` and no `D` covers every data word. -/
theorem covers_of_fields {s : String} {wr wr' : Bool} {a a' : BitVec 8} {d d' : Word} {p m : Packed}
    (hm : m = pack wr' a' d') (hp : p = pack (wr && wr') (a &&& a') (d &&& d')) :
    TableRow.covers ⟨s, p, m⟩ (pack wr a d) := by
  show pack wr a d &&& m = p
  rw [hm, hp, pack_and]

/-- Masking a data word away. -/
theorem and_zero_word (d : Word) : d &&& 0#32 = 0#32 := BitVec.and_zero

namespace EncodeMatchesTable

theorem cmdNop : Statement .cmdNop := by unfold Statement; decide +kernel
theorem cmdReset : Statement .cmdReset := by unfold Statement; decide +kernel
theorem cmdFinal : Statement .cmdFinal := by unfold Statement; decide +kernel
theorem cmdRsv (d : Word) : Statement (.cmdRsv d) :=
  covers_of_fields (wr' := true) (a' := 0xff#8) (d' := 0#32) (by decide) (by rw [and_zero_word]; decide)
theorem wrStatus (d : Word) : Statement (.wrStatus d) :=
  covers_of_fields (wr' := true) (a' := 0xff#8) (d' := 0#32) (by decide) (by rw [and_zero_word]; decide)
theorem wrMlenLo (d : Word) : Statement (.wrMlenLo d) :=
  covers_of_fields (wr' := true) (a' := 0xff#8) (d' := 0#32) (by decide) (by rw [and_zero_word]; decide)
theorem wrMlenHi (d : Word) : Statement (.wrMlenHi d) :=
  covers_of_fields (wr' := true) (a' := 0xff#8) (d' := 0#32) (by decide) (by rw [and_zero_word]; decide)
theorem wrBytecntLo (d : Word) : Statement (.wrBytecntLo d) :=
  covers_of_fields (wr' := true) (a' := 0xff#8) (d' := 0#32) (by decide) (by rw [and_zero_word]; decide)
theorem wrBytecntHi (d : Word) : Statement (.wrBytecntHi d) :=
  covers_of_fields (wr' := true) (a' := 0xff#8) (d' := 0#32) (by decide) (by rw [and_zero_word]; decide)
theorem pushw (d : Word) : Statement (.pushw d) :=
  covers_of_fields (wr' := true) (a' := 0xff#8) (d' := 0#32) (by decide) (by rw [and_zero_word]; decide)
theorem pushb (d : Word) : Statement (.pushb d) :=
  covers_of_fields (wr' := true) (a' := 0xff#8) (d' := 0#32) (by decide) (by rw [and_zero_word]; decide)
theorem wrDigest (i : BitVec 3) (d : Word) : Statement (.wrDigest i d) :=
  covers_of_fields (wr' := true) (a' := 0xe3#8) (d' := 0#32) (by decide) (by rw [and_zero_word]; revert i; decide)
theorem wrRsv40 (x : BitVec 4) (d : Word) : Statement (.wrRsv40 x d) :=
  covers_of_fields (wr' := true) (a' := 0xc3#8) (d' := 0#32) (by decide) (by rw [and_zero_word]; revert x; decide)
theorem wrRsv80 (x : BitVec 4) (d : Word) : Statement (.wrRsv80 x d) :=
  covers_of_fields (wr' := true) (a' := 0xc3#8) (d' := 0#32) (by decide) (by rw [and_zero_word]; revert x; decide)
theorem wrRsvC0 (x : BitVec 4) (d : Word) : Statement (.wrRsvC0 x d) :=
  covers_of_fields (wr' := true) (a' := 0xc3#8) (d' := 0#32) (by decide) (by rw [and_zero_word]; revert x; decide)
theorem rdCmd : Statement .rdCmd := by unfold Statement; decide +kernel
theorem rdStatus : Statement .rdStatus := by unfold Statement; decide +kernel
theorem rdMlenLo : Statement .rdMlenLo := by unfold Statement; decide +kernel
theorem rdMlenHi : Statement .rdMlenHi := by unfold Statement; decide +kernel
theorem rdBytecntLo : Statement .rdBytecntLo := by unfold Statement; decide +kernel
theorem rdBytecntHi : Statement .rdBytecntHi := by unfold Statement; decide +kernel
theorem rdDinW : Statement .rdDinW := by unfold Statement; decide +kernel
theorem rdDinB : Statement .rdDinB := by unfold Statement; decide +kernel
theorem rdDigest (i : BitVec 3) : Statement (.rdDigest i) :=
  covers_of_fields (wr' := true) (a' := 0xe3#8) (d' := 0#32) (by decide) (by revert i; decide)
theorem rdRsv40 (x : BitVec 4) : Statement (.rdRsv40 x) :=
  covers_of_fields (wr' := true) (a' := 0xc3#8) (d' := 0#32) (by decide) (by revert x; decide)
theorem rdRsv80 (x : BitVec 4) : Statement (.rdRsv80 x) :=
  covers_of_fields (wr' := true) (a' := 0xc3#8) (d' := 0#32) (by decide) (by revert x; decide)
theorem rdRsvC0 (x : BitVec 4) : Statement (.rdRsvC0 x) :=
  covers_of_fields (wr' := true) (a' := 0xc3#8) (d' := 0#32) (by decide) (by revert x; decide)

end EncodeMatchesTable

end Sys2Proof.Laws
end

