-- ==== Sys2Proof/Laws/Step.lean ====
section
/-! SUPPORT. What one transaction and one step can do, said once. -/

namespace Sys2Proof.Machine

/-- What an instruction does to the registers, whatever the port holds. -/
def regsAfter (i : Instr) (r : Regs) : Regs :=
  match i with
  | .cmdReset => Regs.reset
  | .cmdFinal => admitted (finalAdmit r) finalize r
  | .cmdRsv _ => recordError .badCmd r
  | .wrMlenLo d => admitted (mlenAdmit r) (fun r => { r with mlen := withMlenLo r.mlen d }) r
  | .wrMlenHi d => admitted (mlenAdmit r) (fun r => { r with mlen := withMlenHi r.mlen d }) r
  | .pushw d => push (pushBytesW d) r
  | .pushb d => push (pushBytesB d) r
  | _ => r

/-- What an instruction returns at the port. -/
def respAfter (i : Instr) (r : Regs) : Response :=
  match i with
  | .rdStatus => .readData (statusWord r)
  | .rdMlenLo => .readData (mlenLo r.mlen)
  | .rdMlenHi => .readData (mlenHi r.mlen)
  | .rdBytecntLo => .readData (bytecntLo r.bytecnt)
  | .rdBytecntHi => .readData (bytecntHi r.bytecnt)
  | .rdDigest i => .readData (digestWord i r)
  | .rdCmd => .readData 0#32
  | .rdDinW => .readData 0#32
  | .rdDinB => .readData 0#32
  | .rdRsv40 _ => .readData 0#32
  | .rdRsv80 _ => .readData 0#32
  | .rdRsvC0 _ => .readData 0#32
  | _ => .writeDone

/-- Everything a transaction does: a proof about `exec` rewrites with this and then has the registers, the response and
the port as three separate functions, none of which unfolds a compression. -/
theorem exec_eq (i : Instr) (s : State) :
    exec i s = .next { regs := regsAfter i s.regs, resp := respAfter i s.regs, pending := s.pending } := by
  cases i <;> rfl

/-- A transaction leaves the registers `regsAfter` gives and takes nothing from the port. -/
theorem exec_inv {i : Instr} {s t : State} (h : exec i s = .next t) :
    t.regs = regsAfter i s.regs ∧ t.resp = respAfter i s.regs ∧ t.pending = s.pending := by
  rw [exec_eq] at h
  injection h with h
  subst h
  exact ⟨rfl, rfl, rfl⟩

/-- A checked transaction ends in one of three ways. -/
theorem admitted_cases (a : Admission) (f : Regs → Regs) (r : Regs) :
    (a = .accept ∧ admitted a f r = f r) ∨ (∃ c, a = .refuse c ∧ admitted a f r = recordError c r) ∨
      (a = .frozen ∧ admitted a f r = r) := by
  cases a
  · exact .inl ⟨rfl, rfl⟩
  · exact .inr (.inl ⟨_, rfl, rfl⟩)
  · exact .inr (.inr ⟨rfl, rfl⟩)

/-- Every instruction changes the registers in one of these ways. -/
theorem regsAfter_cases (i : Instr) (r : Regs) :
    regsAfter i r = r ∨ (∃ c, regsAfter i r = recordError c r) ∨
    (i = .cmdReset ∧ regsAfter i r = Regs.reset) ∨
    (i = .cmdFinal ∧ finalAdmit r = .accept ∧ regsAfter i r = finalize r) ∨
    (isPush i = true ∧ pushAdmit (pushedBytes i).length r = .accept ∧ regsAfter i r = absorb (pushedBytes i) r) ∨
    (mlenAdmit r = .accept ∧ ∃ m, regsAfter i r = { r with mlen := m }) := by
  cases i
  case cmdReset => exact .inr (.inr (.inl ⟨rfl, rfl⟩))
  case cmdRsv => exact .inr (.inl ⟨_, rfl⟩)
  case cmdFinal =>
    rcases admitted_cases (finalAdmit r) finalize r with ⟨h, e⟩ | ⟨c, h, e⟩ | ⟨h, e⟩
    · exact .inr (.inr (.inr (.inl ⟨rfl, h, e⟩)))
    · exact .inr (.inl ⟨c, e⟩)
    · exact .inl e
  case wrMlenLo d =>
    rcases admitted_cases (mlenAdmit r) (fun r => { r with mlen := withMlenLo r.mlen d }) r
      with ⟨h, e⟩ | ⟨c, h, e⟩ | ⟨h, e⟩
    · exact .inr (.inr (.inr (.inr (.inr ⟨h, _, e⟩))))
    · exact .inr (.inl ⟨c, e⟩)
    · exact .inl e
  case wrMlenHi d =>
    rcases admitted_cases (mlenAdmit r) (fun r => { r with mlen := withMlenHi r.mlen d }) r
      with ⟨h, e⟩ | ⟨c, h, e⟩ | ⟨h, e⟩
    · exact .inr (.inr (.inr (.inr (.inr ⟨h, _, e⟩))))
    · exact .inr (.inl ⟨c, e⟩)
    · exact .inl e
  case pushw d =>
    rcases admitted_cases (pushAdmit 4 r) (absorb (pushBytesW d)) r with ⟨h, e⟩ | ⟨c, h, e⟩ | ⟨h, e⟩
    · exact .inr (.inr (.inr (.inr (.inl ⟨rfl, h, e⟩))))
    · exact .inr (.inl ⟨c, e⟩)
    · exact .inl e
  case pushb d =>
    rcases admitted_cases (pushAdmit 1 r) (absorb (pushBytesB d)) r with ⟨h, e⟩ | ⟨c, h, e⟩ | ⟨h, e⟩
    · exact .inr (.inr (.inr (.inr (.inl ⟨rfl, h, e⟩))))
    · exact .inr (.inl ⟨c, e⟩)
    · exact .inl e
  all_goals exact .inl rfl

/-- An access that spells a transaction is accepted as its instruction. -/
theorem acceptRequest_ok {r : BusRequest} {i : Instr} (h : decodeRequest r = .ok i) : acceptRequest r = .ok i := by
  simp [acceptRequest, h]

/-- A step that completes waits, resets, or executes the instruction at the head of the port. -/
theorem step_cases {s t : State} (h : step s = .next t) :
    (s.pending = [] ∧ t = s) ∨
    (∃ x rest, s.pending = .powerOnReset x :: rest ∧ t = State.powerOnReset { s with pending := rest }) ∨
    (∃ r rest i, s.pending = .access r :: rest ∧ decodeRequest r = .ok i ∧
      exec i { s with pending := rest } = .next t) := by
  unfold step at h
  split at h
  · next hp => cases h; exact .inl ⟨hp, rfl⟩
  · next x rest hp => cases h; exact .inr (.inl ⟨x, rest, hp, rfl⟩)
  · next r rest hp =>
    unfold acceptRequest at h
    cases hd : decodeRequest r with
    | ok i => rw [hd] at h; exact .inr (.inr ⟨r, rest, i, hp, hd, h⟩)
    | error e => rw [hd] at h; cases h

/-- Outside Finalized, the registers that stand for `m` have absorbed it. -/
theorem Represents.absorbed {m : List Byte} {r : Regs} (h : Represents m r) (hp : r.phase ≠ .finalized) :
    Absorbed m r := by
  obtain ⟨hc, -, hm⟩ := h
  cases e : r.phase
  · rw [e] at hm
    obtain ⟨rfl, hh, hb⟩ := hm
    exact absorbed_nil (by simpa using hc) hh hb
  · rw [e] at hm
    exact ⟨hc, hm.2.1, hm.2.2⟩
  · exact absurd e hp

/-- A run takes its first step and goes on from there. -/
theorem run_succ_of_next (M : Host.Core) {s t : M.State} (n : Nat) (h : M.step s = .next t) :
    M.run (n + 1) s = M.run n t := by
  simp only [Host.Core.run, h]

end Sys2Proof.Machine
end

