-- ==== Sys2Proof/Laws/Words.lean ====
section
/-! SUPPORT. The operand forms, the byte-order conversions and the schedule as numbers, so that later proofs do not go
bit by bit. -/

namespace Sys2Proof.Machine

/-- Bits that do not overlap add up. -/
theorem toNat_or_of_disjoint {w : Nat} (x y : BitVec w) (h : x &&& y = 0) : (x ||| y).toNat = x.toNat + y.toNat := by
  rw [← BitVec.add_eq_or_of_and_eq_zero _ _ h]
  exact BitVec.toNat_add_of_and_eq_zero h

/-- The two halves of `MLEN` do not overlap. -/
theorem mlen_halves_disjoint (x y : Length) (hy : y.toNat < 2 ^ 32) : x <<< 32 &&& y = 0 := by
  apply BitVec.eq_of_getLsbD_eq
  intro i _
  rw [BitVec.getLsbD_and, BitVec.getLsbD_shiftLeft]
  by_cases h : i < 32
  · simp [h]
  · have : y.getLsbD i = false := by
      rw [BitVec.getLsbD]
      exact Nat.testBit_lt_two_pow (Nat.lt_of_lt_of_le hy (Nat.pow_le_pow_right (by decide) (by omega)))
    simp [this]

/-- A write of `MLEN_LO`, as numbers (30_encoding.md R81). -/
theorem withMlenLo_toNat (m : Length) (d : Word) :
    (withMlenLo m d).toNat = m.toNat / 2 ^ 32 * 2 ^ 32 + d.toNat := by
  have := m.isLt
  have := d.isLt
  unfold withMlenLo
  rw [toNat_or_of_disjoint _ _ (mlen_halves_disjoint _ _ (by simp; omega))]
  simp [BitVec.extractLsb'_toNat, Nat.shiftLeft_eq, Nat.shiftRight_eq_div_pow]
  omega

/-- A write of `MLEN_HI`, as numbers (R78). -/
theorem withMlenHi_toNat (m : Length) (d : Word) :
    (withMlenHi m d).toNat = d.toNat % 2 ^ 29 * 2 ^ 32 + m.toNat % 2 ^ 32 := by
  have := m.isLt
  have := d.isLt
  unfold withMlenHi
  rw [toNat_or_of_disjoint _ _ (mlen_halves_disjoint _ _ (by simp; omega))]
  simp [BitVec.extractLsb'_toNat, Nat.shiftLeft_eq, Nat.shiftRight_eq_div_pow]
  omega

/-- `be32` is the four bytes side by side (00_scope.md R10). -/
theorem be32_eq_append (b0 b1 b2 b3 : Byte) : be32 b0 b1 b2 b3 = b0 ++ b1 ++ b2 ++ b3 := by
  apply BitVec.eq_of_getLsbD_eq
  intro i hi
  simp only [be32, BitVec.getLsbD_or, BitVec.getLsbD_shiftLeft, BitVec.getLsbD_setWidth, BitVec.getLsbD_append]
  interval_cases i <;> simp

/-- `be32` undoes `bytes_be32` (R10). -/
theorem be32_of_bytes (d : Word) :
    be32 (d.extractLsb' 24 8) (d.extractLsb' 16 8) (d.extractLsb' 8 8) (d.extractLsb' 0 8) = d := by
  rw [be32_eq_append]
  apply BitVec.eq_of_getLsbD_eq
  intro i hi
  simp only [BitVec.getLsbD_append, BitVec.getLsbD_extractLsb']
  interval_cases i <;> simp

/-- The first sixteen schedule words are the block words (41_schedule.md R132). -/
theorem expand_first (b : Block) (t : Nat) (ht : t < 16) :
    (expand b)[t] = be32 b[4 * t] b[4 * t + 1] b[4 * t + 2] b[4 * t + 3] := by
  have h : (expand b)[t] = (blockWords b)[t] := schedule_get_stable b 0 48 t ht
  rw [h]
  simp [blockWords]

/-- A schedule word may be read from any schedule long enough to hold it. -/
theorem expand_eq_schedule (b : Block) (n t : Nat) (hn : n ≤ 48) (ht : t < 16 + n) :
    (expand b)[t] = (schedule b n)[t] := by
  obtain ⟨m, hm⟩ : ∃ m, n + m = 48 := ⟨48 - n, by omega⟩
  have key : ∀ (q : Nat) (_ : q = 48) (hq : t < 16 + q), (schedule b q)[t] = (expand b)[t]'(by omega) := by
    intro q h hq
    subst h
    rfl
  rw [← key _ hm (by omega)]
  exact schedule_get_stable b n m t ht

/-- Appending a byte keeps the buffer zero from the fill level on (10_state.md R31). -/
theorem append_tail_zero (b : Byte) (r : Regs)
    (h : ∀ (k : Nat) (hk : k < 64), fill r ≤ k → r.buf[k] = 0x00#8) :
    ∀ (k : Nat) (hk : k < 64), fill (append b r) ≤ k → (append b r).buf[k] = 0x00#8 := by
  intro k hk hf
  have hlt := fill_lt r
  rcases Nat.lt_or_ge (fill r) 63 with hl | hg
  · rw [append_of_room b hl, fill_storeByte] at hf
    simp only [append_of_room b hl, storeByte_buf]
    rw [Vector.getElem_set, if_neg (by omega)]
    exact h k hk (by omega)
  · simp only [append_of_last b (show fill r = 63 by omega), compressBuffer_buf, zeroBlock_get]

/-- The codes the core records are 1 to 5 (60_exceptions.md R211). -/
theorem errCauseCode_range (c : ErrCause) : 1 ≤ (errCauseCode c).toNat ∧ (errCauseCode c).toNat ≤ 5 := by
  cases c <;> decide

end Sys2Proof.Machine
end

