-- ==== Sys2Proof/Tests/Slice0.lean ====
section
/-! SUPPORT. The model's own tests. The expected values of the step tests are rows of 95_test_vectors.md (named in each
docstring) or the rules' own examples; the words of the decode tests are the encoding strings of 30_encoding.md R86, bit
40 first; each witness theorem shows a state and operands that meet every hypothesis of the statement it names. -/

namespace Sys2Proof.Tests

open Sys2Proof.Machine

-- The theorems are checked one after the other: together their threads would ask for more memory than the check allows.
set_option Elab.async false

/-! ### Small states -/

/-- Straight after reset, with the length `n` declared (`SETLEN n`). -/
def declared (n : Length) : Regs := { Regs.reset with mlen := n }

/-- A core holding registers `r`, nothing returned, nothing at the port. -/
def coreOf (r : Regs) : State := { regs := r, resp := .none, pending := [] }

/-- The bytes `bs` pushed, none of which fills the block, of `n` declared. -/
def holding (n : Length) (bs : List Byte) : Regs :=
  { declared n with phase := .absorbing, bytecnt := BitVec.ofNat 64 bs.length, buf := blockAt bs 0 }

/-- Registers `r` with the error code `c` recorded. -/
def failed (c : BitVec 4) (r : Regs) : Regs := { r with err := true, errcode := c }

/-- Finalized after the empty message, with its digest words (95_test_vectors.md P2). -/
def doneEmpty : Regs :=
  { Regs.reset with
    phase := .finalized
    h := #v[0xe3b0c442#32, 0x98fc1c14#32, 0x9afbf4c8#32, 0x996fb924#32, 0x27ae41e4#32, 0x649b934c#32, 0xa495991b#32,
      0x7852b855#32] }

/-- The registers an outcome holds, if it is a next state. -/
def regsOf : Host.Outcome State Fault Refusal → Option Regs
  | .next t => some t.regs
  | _ => none

/-- What an outcome returned at the port, if it is a next state. -/
def respOf : Host.Outcome State Fault Refusal → Option Response
  | .next t => some t.resp
  | _ => none

/-- `STATUS` after an outcome. -/
def statusOf (o : Host.Outcome State Fault Refusal) : Option Word := (regsOf o).map statusWord

/-! ### WellFormed refuses ill-formed terms -/

/-- R77: the three valid command words are no reserved commands. -/
theorem test_wf_refuses_valid_words_as_reserved :
    (Instr.cmdRsv 0x0#32).wf = false ∧ (Instr.cmdRsv 0x1#32).wf = false ∧ (Instr.cmdRsv 0x2#32).wf = false := by decide

/-- R77: the words next to them are. -/
theorem test_wf_accepts_reserved_words :
    (Instr.cmdRsv 0x3#32).wf = true ∧ (Instr.cmdRsv 0x100#32).wf = true ∧ (Instr.cmdRsv 0x80000001#32).wf = true := by
  decide

/-- R54, R55: narrow, out of the window, misaligned; and the last access of the window, which is well formed. -/
theorem test_wf_refuses_uncarriable_accesses :
    (BusRequest.mk true 0 8 0#32).wf = false ∧ (BusRequest.mk true 256 32 0#32).wf = false ∧
      (BusRequest.mk false 2 32 0#32).wf = false ∧ (BusRequest.mk false 0xFC 32 0#32).wf = true := by decide

/-! ### Decoding: the encoding strings of R86, every row -/

theorem test_decode_commands :
    decode 0b10000000000000000000000000000000000000000#41 = .ok .cmdNop ∧
    decode 0b10000000000000000000000000000000000000001#41 = .ok .cmdReset ∧
    decode 0b10000000000000000000000000000000000000010#41 = .ok .cmdFinal ∧
    decode 0b10000000000000000000000000000000000000011#41 = .ok (.cmdRsv 0x3#32) ∧
    decode 0b10000000000000000000000000000000100000000#41 = .ok (.cmdRsv 0x100#32) := by
  refine ⟨?_, ?_, ?_, ?_, ?_⟩ <;> rfl

theorem test_decode_register_writes :
    decode 0b10000010010000000000000000000000000000001#41 = .ok (.wrStatus 0x80000001#32) ∧
    decode 0b10000100010000000000000000000000000000001#41 = .ok (.wrMlenLo 0x80000001#32) ∧
    decode 0b10000110010000000000000000000000000000001#41 = .ok (.wrMlenHi 0x80000001#32) ∧
    decode 0b10001000010000000000000000000000000000001#41 = .ok (.wrBytecntLo 0x80000001#32) ∧
    decode 0b10001010010000000000000000000000000000001#41 = .ok (.wrBytecntHi 0x80000001#32) := by
  refine ⟨?_, ?_, ?_, ?_, ?_⟩ <;> rfl

theorem test_decode_pushes :
    decode 0b10001100010000000000000000000000000000001#41 = .ok (.pushw 0x80000001#32) ∧
    decode 0b10001110010000000000000000000000000000001#41 = .ok (.pushb 0x80000001#32) := by
  refine ⟨?_, ?_⟩ <;> rfl

theorem test_decode_group_writes :
    decode 0b10010110010000000000000000000000000000001#41 = .ok (.wrDigest 3#3 0x80000001#32) ∧
    decode 0b10110010010000000000000000000000000000001#41 = .ok (.wrRsv40 9#4 0x80000001#32) ∧
    decode 0b11010010010000000000000000000000000000001#41 = .ok (.wrRsv80 9#4 0x80000001#32) ∧
    decode 0b11110010010000000000000000000000000000001#41 = .ok (.wrRsvC0 9#4 0x80000001#32) := by
  refine ⟨?_, ?_, ?_, ?_⟩ <;> rfl

/-- The data bits of a read are ignored (R72). -/
theorem test_decode_register_reads :
    decode 0b00000000010000000000000000000000000000001#41 = .ok .rdCmd ∧
    decode 0b00000010010000000000000000000000000000001#41 = .ok .rdStatus ∧
    decode 0b00000100010000000000000000000000000000001#41 = .ok .rdMlenLo ∧
    decode 0b00000110010000000000000000000000000000001#41 = .ok .rdMlenHi ∧
    decode 0b00001000010000000000000000000000000000001#41 = .ok .rdBytecntLo ∧
    decode 0b00001010010000000000000000000000000000001#41 = .ok .rdBytecntHi ∧
    decode 0b00001100010000000000000000000000000000001#41 = .ok .rdDinW ∧
    decode 0b00001110010000000000000000000000000000001#41 = .ok .rdDinB := by
  refine ⟨?_, ?_, ?_, ?_, ?_, ?_, ?_, ?_⟩ <;> rfl

theorem test_decode_group_reads :
    decode 0b00010110010000000000000000000000000000001#41 = .ok (.rdDigest 3#3) ∧
    decode 0b00110010010000000000000000000000000000001#41 = .ok (.rdRsv40 9#4) ∧
    decode 0b01010010010000000000000000000000000000001#41 = .ok (.rdRsv80 9#4) ∧
    decode 0b01110010010000000000000000000000000000001#41 = .ok (.rdRsvC0 9#4) := by
  refine ⟨?_, ?_, ?_, ?_⟩ <;> rfl

/-- R71: the decoder says "invalid" for each of the three misaligned values of `A[1:0]`. -/
theorem test_decode_misaligned :
    decode 0b10000000100000000000000000000000000000000#41 = .error .misalignedOffset ∧
    decode 0b10000001000000000000000000000000000000000#41 = .error .misalignedOffset ∧
    decode 0b00000001100000000000000000000000000000000#41 = .error .misalignedOffset := by
  refine ⟨?_, ?_, ?_⟩ <;> rfl

/-- The numbering of the opcode table's words: bit 40 is `Wr`; a word of more than 41 bits is no transaction. -/
theorem test_decodeTableWord :
    decodeTableWord 48 0x11861626364 = some (.pushw 0x61626364#32) ∧
    decodeTableWord 48 0x20000000000 = none ∧ decodeTableWord 48 0x00100000000 = none := by
  refine ⟨?_, ?_, ?_⟩ <;> rfl

/-- A placed word is the one the next step runs. -/
theorem test_withFetchWord :
    step (State.reset.withFetchWord 48 0x10800000003) = exec (.wrMlenLo 3#32) State.reset ∧
    step (State.reset.withFetchWord 48 0x10100000000) = .refused (.noTransaction .misalignedOffset) := by
  refine ⟨?_, ?_⟩ <;> rfl

/-- R84 with P7's encodings: the two base forms of the host script. -/
theorem test_assemble_base_forms :
    assemble (.wr .mlenHi 0xFFFFFFFF#32) = [0x10cffffffff#41] ∧ assemble (.rd (.slot 0x10#6)) = [0x04000000000#41] ∧
    assemble (.wr (.slot 0x20#6) 0x12345678#32) = [0x18012345678#41] ∧
    assemble (.rd (.digest 7#3)) = [0x03c00000000#41] := by decide

/-! ### The data path -/

/-- L2-A, row 12345678. -/
theorem test_sigmas :
    sigma0 0x12345678#32 = 0xe7fce6ee#32 ∧ sigma1 0x12345678#32 = 0xa1f78649#32 ∧
    bigSigma0 0x12345678#32 = 0x66146474#32 ∧ bigSigma1 0x12345678#32 = 0x3561abda#32 := by decide

/-- L2-A, the last rows of the second table. -/
theorem test_ch_maj :
    ch 0xf0f0f0f0#32 0xff00ff00#32 0x0f0f0f0f#32 = 0xff0fff0f#32 ∧
    maj 0xffffffff#32 0x12345678#32 0x9abcdef0#32 = 0x9abcdef8#32 := by decide

/-- L2-B: schedule words of the padded "abc" block, the first the recurrence gives and the last. -/
theorem test_schedule_abc :
    let w := expand ((((zeroBlock.set 0 0x61#8).set 1 0x62#8).set 2 0x63#8).set 3 0x80#8 |>.set 63 0x18#8)
    w[0] = 0x61626380#32 ∧ w[15] = 0x18#32 ∧ w[18] = 0x7da86405#32 ∧ w[63] = 0x12b1edeb#32 := by decide +kernel

/-- L2-C: one round on its own, from the IV with `W[0] = 0`. -/
theorem test_round :
    let v := roundStep roundConstants[0] 0#32 (loadWorking iv)
    v.a = 0xfc08884d#32 ∧ v.e = 0x98c7e2a2#32 ∧ v.b = iv[0] ∧ v.h = iv[6] := by decide +kernel

/-- L2-C: the compression of 64 bytes 0xFF. -/
theorem test_compress :
    compress iv (Vector.replicate 64 0xFF#8) = #v[0xef0c748d#32, 0xf4da50a8#32, 0xd6c43c01#32, 0x3edc3ce7#32,
      0x6c9d9fa9#32, 0xa1458ade#32, 0x56eb86c0#32, 0xa64492d2#32] := by decide +kernel

/-! ### Commands (L2-F) -/

/-- F1: NOP with an error recorded. -/
theorem test_nop : regsOf (exec .cmdNop (coreOf (failed 1#4 Regs.reset))) = some (failed 1#4 Regs.reset) := by
  decide +kernel

/-- F2: RESET while Absorbing and `ERR = 1`. -/
theorem test_reset : regsOf (exec .cmdReset (coreOf (failed 5#4 (holding 4#61 [0x01#8])))) = some Regs.reset := by
  decide +kernel

/-- F3 and P2: FINAL of the empty message. -/
theorem test_final_empty : regsOf (exec .cmdFinal (coreOf Regs.reset)) = some doneEmpty := by decide +kernel

/-- L2-D: FINAL of the 56-byte message, the two-block padding, seen through the first and the last digest word. -/
theorem test_final_two_blocks :
    (regsOf (exec .cmdFinal (coreOf (holding 56#61
      ((List.range 14).flatMap fun j => (List.range 4).map fun k => BitVec.ofNat 8 (0x61 + j + k)))))).map
        (fun r => (r.h[0], r.h[7], r.phase)) = some (0x248d6a61#32, 0x19db06c1#32, .finalized) := by decide +kernel

/-- F4: FINAL too early; F5: FINAL twice. -/
theorem test_final_refused :
    statusOf (exec .cmdFinal (coreOf (declared 1#61))) = some 0x34#32 ∧
    statusOf (exec .cmdFinal (coreOf doneEmpty)) = some 0x46#32 := by decide +kernel

/-- F6 and F7: reserved command words; F9: ignored while frozen. -/
theorem test_reserved_command :
    statusOf (exec (.cmdRsv 0x102#32) (coreOf Regs.reset)) = some 0x14#32 ∧
    statusOf (exec (.cmdRsv 0x3#32) (coreOf (failed 3#4 (declared 1#61)))) = some 0x34#32 := by decide +kernel

/-! ### Length writes and pushes (L2-E) -/

/-- The low half of E3, after its high half. -/
theorem test_wr_mlen_lo :
    regsOf (exec (.wrMlenLo 7#32) (coreOf (declared 0x500000000#61))) = some (declared 0x500000007#61) := by
  decide +kernel

/-- E12: locked after the first byte. -/
theorem test_wr_mlen_lo_locked :
    regsOf (exec (.wrMlenLo 8#32) (coreOf (holding 4#61 [0x01#8]))) = some (failed 5#4 (holding 4#61 [0x01#8])) := by
  decide +kernel

/-- E2: bits 31:29 are ignored. -/
theorem test_wr_mlen_hi :
    regsOf (exec (.wrMlenHi 0xFFFFFFFF#32) (coreOf Regs.reset)) = some (declared 0x1FFFFFFF00000000#61) := by
  decide +kernel

/-- R102: locked in Finalized. -/
theorem test_wr_mlen_hi_locked : statusOf (exec (.wrMlenHi 0#32) (coreOf doneEmpty)) = some 0x56#32 := by
  decide +kernel

/-- E5: `D[31:8]` is ignored. -/
theorem test_pushb :
    regsOf (exec (.pushb 0xFFFFFF61#32) (coreOf (declared 1#61))) = some (holding 1#61 [0x61#8]) := by decide +kernel

/-- E6: OVERRUN at `MLEN = 0`; E14: ignored while frozen. -/
theorem test_pushb_refused :
    statusOf (exec (.pushb 0#32) (coreOf Regs.reset)) = some 0x24#32 ∧
    regsOf (exec (.pushb 0x61#32) (coreOf (failed 2#4 (declared 3#61)))) = some (failed 2#4 (declared 3#61)) := by
  decide +kernel

/-- E9: an unaligned word push. -/
theorem test_pushw :
    regsOf (exec (.pushw 0x62636465#32) (coreOf (holding 5#61 [0x61#8]))) =
      some (holding 5#61 [0x61#8, 0x62#8, 0x63#8, 0x64#8, 0x65#8]) := by decide +kernel

/-- P11's 16th push: the word that fills the block compresses it; L2-C gives the first word of `H`. -/
theorem test_pushw_fills_block :
    (regsOf (exec (.pushw 0x61616161#32) (coreOf (holding 64#61 (List.replicate 60 0x61#8))))).map
      (fun r => (r.h[0], r.bytecnt, r.phase, decide (r.buf = zeroBlock))) =
        some (0xdf5bb81c#32, 64#64, .absorbing, true) := by decide +kernel

/-- E10 in its straddling part: the bytes after position 63 go to the cleared buffer. -/
theorem test_pushw_straddles :
    (regsOf (exec (.pushw 0x01020304#32) (coreOf (holding 66#61 (List.replicate 62 0x61#8))))).map
      (fun r => (r.buf[0], r.buf[1], r.buf[2], r.bytecnt)) = some (0x03#8, 0x04#8, 0x00#8, 66#64) := by decide +kernel

/-- E7: all or nothing; E13: NOT_ACCEPTING goes before OVERRUN. -/
theorem test_pushw_refused :
    regsOf (exec (.pushw 0x61626300#32) (coreOf (declared 3#61))) = some (failed 2#4 (declared 3#61)) ∧
    statusOf (exec (.pushw 0#32) (coreOf doneEmpty)) = some 0x46#32 := by decide +kernel

/-! ### Reads and ignored writes (L2-G) -/

/-- P5's end state: STATE Absorbing, ERR, ERRCODE 5. -/
theorem test_rd_status :
    respOf (exec .rdStatus (coreOf (failed 5#4 (holding 5#61 [0x68#8])))) = some (.readData 0x55#32) := by
  decide +kernel

/-- E3: the halves of `MLEN = 0x500000007`. -/
theorem test_rd_mlen :
    respOf (exec .rdMlenLo (coreOf (declared 0x500000007#61))) = some (.readData 7#32) ∧
    respOf (exec .rdMlenHi (coreOf (declared 0x500000007#61))) = some (.readData 5#32) := by decide +kernel

/-- R39 on a count past 32 bits. -/
theorem test_rd_bytecnt :
    respOf (exec .rdBytecntLo (coreOf { Regs.reset with bytecnt := 0x500000007#64 })) = some (.readData 7#32) ∧
    respOf (exec .rdBytecntHi (coreOf { Regs.reset with bytecnt := 0x500000007#64 })) = some (.readData 5#32) := by
  decide +kernel

/-- P2's digest words; G2: 0 outside Finalized; P6 and F5: readable with an error recorded. -/
theorem test_rd_digest :
    respOf (exec (.rdDigest 7#3) (coreOf (failed 4#4 doneEmpty))) = some (.readData 0x7852b855#32) ∧
    respOf (exec (.rdDigest 0#3) (coreOf Regs.reset)) = some (.readData 0#32) := by decide +kernel

/-- G5. -/
theorem test_rd_write_only :
    respOf (exec .rdCmd (coreOf doneEmpty)) = some (.readData 0#32) ∧
    respOf (exec .rdDinW (coreOf doneEmpty)) = some (.readData 0#32) ∧
    respOf (exec .rdDinB (coreOf doneEmpty)) = some (.readData 0#32) := by decide +kernel

/-- G6 and the middle group. -/
theorem test_rd_reserved :
    respOf (exec (.rdRsv40 0#4) (coreOf doneEmpty)) = some (.readData 0#32) ∧
    respOf (exec (.rdRsv80 0#4) (coreOf doneEmpty)) = some (.readData 0#32) ∧
    respOf (exec (.rdRsvC0 15#4) (coreOf doneEmpty)) = some (.readData 0#32) := by decide +kernel

/-- G7, and R195's corner case: `WR STATUS, 0` does not clear `ERR`. -/
theorem test_wr_status :
    regsOf (exec (.wrStatus 0xFFFFFFFF#32) (coreOf Regs.reset)) = some Regs.reset ∧
    statusOf (exec (.wrStatus 0#32) (coreOf (failed 1#4 Regs.reset))) = some 0x14#32 := by decide +kernel

/-- G10 and its high half. -/
theorem test_wr_bytecnt :
    regsOf (exec (.wrBytecntLo 5#32) (coreOf Regs.reset)) = some Regs.reset ∧
    regsOf (exec (.wrBytecntHi 5#32) (coreOf Regs.reset)) = some Regs.reset := by decide +kernel

/-- G8. -/
theorem test_wr_digest : regsOf (exec (.wrDigest 0#3 0#32) (coreOf doneEmpty)) = some doneEmpty := by decide +kernel

/-- G9 and the two other groups. -/
theorem test_wr_reserved :
    regsOf (exec (.wrRsv40 0#4 0x12345678#32) (coreOf Regs.reset)) = some Regs.reset ∧
    regsOf (exec (.wrRsv80 0#4 0x12345678#32) (coreOf Regs.reset)) = some Regs.reset ∧
    regsOf (exec (.wrRsvC0 15#4 0x12345678#32) (coreOf Regs.reset)) = some Regs.reset := by decide +kernel

/-! ### Witnesses: the hypotheses of each statement can be met -/

theorem witness_DecodeInvertsEncode :
    (Instr.cmdRsv 0x3#32).wf = true ∧ (Instr.cmdRsv 0xFFFFFFFF#32).wf = true ∧ (Instr.wrDigest 7#3 0#32).wf = true := by
  decide

/-- A row of a valid command, which CMD.RSV's row also covers, and one of another register, which no other row covers. -/
theorem witness_AlignedTransactionsHaveOneRow :
    (addrField 0x10000000002#41).extractLsb' 0 2 = 0b00#2 ∧
    (tableRow (.cmdRsv 0x7#32)).covers 0x10000000002#41 ∧ tableRow (.cmdRsv 0x7#32) ≠ tableRow .cmdFinal ∧
    (addrField 0x1fc00000000#41).extractLsb' 0 2 = 0b00#2 := by decide

theorem witness_ReadDataFieldIsIgnored :
    decode 0x02412345678#41 = .ok (.rdDigest 1#3) ∧ wrField 0x02412345678#41 = false ∧
    decode 0x10000000007#41 = .ok (.cmdRsv 7#32) := by
  refine ⟨?_, ?_, ?_⟩ <;> rfl

theorem witness_MisalignedTransactionsAreRefused :
    (0x01#8).extractLsb' 0 2 ≠ 0b00#2 ∧ (0x02#8).extractLsb' 0 2 ≠ 0b00#2 ∧ (0xFF#8).extractLsb' 0 2 ≠ 0b00#2 := by
  decide

/-- Each of the three refusals at the edge of its range, and accesses at the edge that are not refused. -/
theorem witness_RefusalsAreExactlyTheUncarriableAccesses :
    step (State.reset.present ⟨false, 0xFD, 32, 0#32⟩) = .refused (.noTransaction .misalignedOffset) ∧
    step (State.reset.present ⟨true, 0x100, 32, 0#32⟩) = .refused (.noTransaction .offsetOutOfWindow) ∧
    step (State.reset.present ⟨true, 0, 31, 0#32⟩) = .refused (.noTransaction .notWordWide) ∧
    step (State.reset.present ⟨false, 0xFC, 32, 0#32⟩) = exec (.rdRsvC0 15#4) State.reset := by
  refine ⟨?_, ?_, ?_, ?_⟩ <;> rfl

/-- Both directions of the equivalence, at the boundary words of R77. -/
theorem witness_ReservedCommandWords :
    decode (pack true 0x00#8 0x00000003#32) = .ok (.cmdRsv 3#32) ∧
    decode (pack true 0x00#8 0x00000100#32) = .ok (.cmdRsv 0x100#32) ∧
    decode (pack true 0x00#8 0x00000002#32) = .ok .cmdFinal := by
  refine ⟨?_, ?_, ?_⟩ <;> rfl

theorem witness_StepRunsTheDecodedInstruction :
    (State.reset.present ⟨true, 0x1C, 32, 0x61#32⟩).pending = .access ⟨true, 0x1C, 32, 0x61#32⟩ :: [] ∧
    decodeRequest ⟨true, 0x1C, 32, 0x61#32⟩ = .ok (.pushb 0x61#32) := by
  refine ⟨?_, ?_⟩ <;> rfl

theorem witness_IssuedInstructionRuns : (Instr.pushw 0x61626364#32).wf = true := by decide

theorem witness_PowerOnResetWins :
    ({ coreOf (holding 4#61 [0x01#8]) with
      pending := [.powerOnReset (some (Instr.request .cmdFinal)), .access (Instr.request .rdStatus)] } : State).pending =
      .powerOnReset (some (Instr.request .cmdFinal)) :: [.access (Instr.request .rdStatus)] := by rfl

theorem witness_WaitingCoreKeepsItsState : (coreOf doneEmpty).pending = [] := by rfl

/-- Two cores with the same registers and different ports. -/
theorem witness_OnlyRegistersSurvive :
    ∃ t t', (coreOf doneEmpty).regs = ((coreOf doneEmpty).present ⟨true, 0, 32, 0#32⟩).regs ∧
      exec .rdStatus (coreOf doneEmpty) = .next t ∧
      exec .rdStatus ((coreOf doneEmpty).present ⟨true, 0, 32, 0#32⟩) = .next t' :=
  ⟨_, _, rfl, rfl, rfl⟩

/-- Each of the three disjuncts. -/
theorem witness_ResetValues :
    (∃ t, exec .cmdReset (coreOf (failed 4#4 doneEmpty)) = .next t) ∧
    (∃ t, step { coreOf doneEmpty with pending := [.powerOnReset none] } = .next t) :=
  ⟨⟨_, rfl⟩, ⟨_, rfl⟩⟩

theorem witness_ResetCommandEqualsPowerOnReset :
    ∃ t t', exec .cmdReset (coreOf (failed 4#4 doneEmpty)) = .next t ∧
      ({ coreOf (holding 4#61 [0x01#8]) with pending := [.powerOnReset none] } : State).pending = [.powerOnReset none] ∧
      step { coreOf (holding 4#61 [0x01#8]) with pending := [.powerOnReset none] } = .next t' :=
  ⟨_, _, rfl, rfl, rfl⟩

/-- The pad byte at the two ends of the buffer. -/
theorem witness_PadBitWithinItsWord :
    ((∀ k : Fin 64, fill Regs.reset ≤ k.val → Regs.reset.buf[k] = 0x00#8) ∧ 0 = fill Regs.reset / 4) ∧
    (∀ k : Fin 64, fill (holding 63#61 (List.replicate 63 0xFF#8)) ≤ k.val →
        (holding 63#61 (List.replicate 63 0xFF#8)).buf[k] = 0x00#8) ∧
    15 = fill (holding 63#61 (List.replicate 63 0xFF#8)) / 4 := by decide +kernel

/-- Accepted word pushes: the first of a message, exactly up to the declared length, and one that fills a block. -/
theorem witness_WordPushEqualsFourBytePushes :
    pushAdmit 4 (declared 4#61) = .accept ∧ pushAdmit 4 (holding 66#61 (List.replicate 62 0x61#8)) = .accept := by
  decide +kernel

/-- The clause `p < 15` at its upper end and the clause `p = 15`. -/
theorem witness_AlignedWordPushIsScheduleWord :
    (pushAdmit 4 (holding 60#61 (List.replicate 56 0x61#8)) = .accept ∧
      fill (holding 60#61 (List.replicate 56 0x61#8)) = 4 * 14) ∧
    (pushAdmit 4 (holding 64#61 (List.replicate 60 0x61#8)) = .accept ∧
      fill (holding 64#61 (List.replicate 60 0x61#8)) = 4 * 15) ∧
    (∃ t, exec (.pushw 0x61626364#32) (coreOf (holding 64#61 (List.replicate 60 0x61#8))) = .next t) ∧
    (∃ t, exec (.pushw 0x61626364#32) (coreOf (holding 60#61 (List.replicate 56 0x61#8))) = .next t) :=
  ⟨by decide +kernel, by decide +kernel, ⟨_, exec_eq _ _⟩, ⟨_, exec_eq _ _⟩⟩

/-- R31's zero bytes of a core that holds one byte. -/
theorem holding_tail : ∀ j : Fin 64, fill (failed 5#4 (holding 4#61 [0x01#8])) ≤ j.val →
    (failed 5#4 (holding 4#61 [0x01#8])).buf[j] = 0x00#8 := by decide +kernel

/-- The invariants hold of a core that is Absorbing with an error recorded. -/
theorem witness_inv_absorbing : (failed 5#4 (holding 4#61 [0x01#8])).Inv where
  count_le_length := by decide
  idle_is_clean := fun h => absurd h (by decide)
  finalized_is_complete := fun h => absurd h (by decide)
  no_error_iff_no_code := by decide
  code_in_range := by decide
  phase_is_legal := by decide
  length_bounded := by decide
  tail_is_zero := fun k hk h => holding_tail ⟨k, hk⟩ h
  absorbing_has_bytes := by decide

/-- The invariants hold with a length declared and no error. -/
theorem witness_ReadStatus : (declared 3#61).Inv ∧ (declared 3#61).err = false where
  left :=
    { count_le_length := by decide
      idle_is_clean := fun _ => ⟨rfl, rfl, rfl⟩
      finalized_is_complete := fun h => absurd h (by decide)
      no_error_iff_no_code := by decide
      code_in_range := by decide
      phase_is_legal := by decide
      length_bounded := by decide
      tail_is_zero := fun k hk _ => zeroBlock_get k hk
      absorbing_has_bytes := fun h => absurd h (by decide) }
  right := rfl

theorem witness_ReadBytecnt : (failed 5#4 (holding 4#61 [0x01#8])).Inv := witness_inv_absorbing

theorem witness_ReadDigest :
    (coreOf (failed 4#4 doneEmpty)).regs.phase = .finalized ∧ (coreOf Regs.reset).regs.phase ≠ .finalized := by decide

theorem witness_WriteOnlyAndReservedReadZero :
    Instr.rdCmd ∈ [Instr.rdCmd, .rdDinW, .rdDinB, .rdRsv40 15#4, .rdRsv80 15#4, .rdRsvC0 15#4] ∧
    Instr.rdRsvC0 15#4 ∈ [Instr.rdCmd, .rdDinW, .rdDinB, .rdRsv40 15#4, .rdRsv80 15#4, .rdRsvC0 15#4] := by decide

theorem witness_IgnoredWritesHaveNoEffect :
    Instr.wrDigest 7#3 1#32 ∈ [Instr.wrStatus 1#32, .wrBytecntLo 1#32, .wrBytecntHi 1#32, .wrDigest 7#3 1#32,
      .wrRsv40 0#4 1#32, .wrRsv80 0#4 1#32, .wrRsvC0 0#4 1#32] := by decide

/-- The ends of the digest group and of the reserved group. -/
theorem witness_EveryWindowReadHasNoSideEffect :
    (0x20#8).extractLsb' 0 2 = 0b00#2 ∧ (0x3C#8).extractLsb' 0 2 = 0b00#2 ∧ (0x40#8).extractLsb' 0 2 = 0b00#2 ∧
    (0xFC#8).extractLsb' 0 2 = 0b00#2 := by decide

/-- Two Absorbing cores that differ in the accumulator and the buffer. -/
theorem witness_NoPartialDigestIsReadable :
    SameButHash (holding 4#61 [0x01#8]) { holding 4#61 [0x02#8] with h := doneEmpty.h } ∧
    (coreOf (holding 4#61 [0x01#8])).regs.phase ≠ .finalized ∧
    (∃ t, exec (.rdDigest 0#3) (coreOf (holding 4#61 [0x01#8])) = .next t) ∧
    (∃ t, exec (.rdDigest 0#3) (coreOf { holding 4#61 [0x02#8] with h := doneEmpty.h }) = .next t) :=
  ⟨⟨rfl, rfl, rfl, rfl, rfl⟩, by decide, ⟨_, rfl⟩, ⟨_, rfl⟩⟩

/-- A refused push. -/
theorem witness_ErrorsArePrecise :
    ∃ t, (coreOf (declared 3#61)).regs.err = false ∧ exec (.pushw 0#32) (coreOf (declared 3#61)) = .next t ∧
      t.regs.err = true :=
  ⟨_, rfl, exec_eq _ _, by decide +kernel⟩

/-- Each of the five codes is recorded by some transaction, and none by an accepted one. -/
theorem witness_ErrorCodesHaveTheirCauses :
    (regsOf (exec (.cmdRsv 3#32) (coreOf Regs.reset))).map (·.errcode) = some 1#4 ∧
    (regsOf (exec (.pushb 0#32) (coreOf (holding 1#61 [0x01#8])))).map (·.errcode) = some 2#4 ∧
    (regsOf (exec .cmdFinal (coreOf (holding 2#61 [0x01#8])))).map (·.errcode) = some 3#4 ∧
    (regsOf (exec (.pushw 0#32) (coreOf doneEmpty))).map (·.errcode) = some 4#4 ∧
    (regsOf (exec (.wrMlenLo 0#32) (coreOf (holding 1#61 [0x01#8])))).map (·.errcode) = some 5#4 ∧
    (regsOf (exec (.pushb 0#32) (coreOf (declared 1#61)))).map (·.errcode) = some 0#4 := by decide +kernel

/-- A frozen core, one not Finalized and one Finalized, and a transaction it ignores. -/
theorem witness_FrozenCore :
    ∃ t, (coreOf (failed 2#4 (declared 3#61))).regs.err = true ∧ (coreOf (failed 4#4 doneEmpty)).regs.err = true ∧
      Instr.cmdFinal ≠ .cmdReset ∧ exec .cmdFinal (coreOf (failed 2#4 (declared 3#61))) = .next t :=
  ⟨_, rfl, rfl, by decide, exec_eq _ _⟩

/-- The two ways a recorded error goes away. -/
theorem witness_OnlyResetClearsError :
    (∃ t, step ((coreOf (failed 2#4 (declared 3#61))).present (Instr.request .cmdReset)) = .next t ∧
      ¬ (t.regs.err = true ∧ t.regs.errcode = 2#4)) ∧
    (∃ t, step { coreOf (failed 2#4 (declared 3#61)) with pending := [.powerOnReset none] } = .next t ∧
      ¬ (t.regs.err = true ∧ t.regs.errcode = 2#4)) :=
  ⟨⟨_, rfl, by decide⟩, ⟨_, rfl, by decide⟩⟩

/-- Each transition of R180 can be taken, and the refused pushes stay where they are. -/
theorem witness_PhaseTransitions :
    pushAdmit 1 (declared 1#61) = .accept ∧ pushAdmit 4 (declared 4#61) = .accept ∧
    finalAdmit Regs.reset = .accept ∧ Regs.reset.phase = .idle ∧
    finalAdmit (holding 1#61 [0x01#8]) = .accept ∧ (holding 1#61 [0x01#8]).phase = .absorbing ∧
    doneEmpty.phase = .finalized ∧ pushAdmit 1 Regs.reset ≠ .accept ∧ Regs.reset.bytecnt = 0#64 :=
  ⟨by decide, by decide, by decide, rfl, by decide +kernel, rfl, rfl, by decide, rfl⟩

/-- `H` changes by RESET, by the push of a block's last byte (fill level 63 for PUSHB, 60 the least for PUSHW) and by
FINAL. -/
theorem witness_AccumulatorWriters :
    (∃ t, exec .cmdReset (coreOf doneEmpty) = .next t ∧ t.regs.h ≠ (coreOf doneEmpty).regs.h) ∧
    (∃ t, exec (.pushb 0x61#32) (coreOf (holding 64#61 (List.replicate 63 0x61#8))) = .next t ∧
      t.regs.h ≠ (coreOf (holding 64#61 (List.replicate 63 0x61#8))).regs.h) ∧
    (∃ t, exec .cmdFinal (coreOf Regs.reset) = .next t ∧ t.regs.h ≠ (coreOf Regs.reset).regs.h) :=
  ⟨⟨_, exec_eq _ _, by decide +kernel⟩, ⟨_, exec_eq _ _, by decide +kernel⟩, ⟨_, exec_eq _ _, by decide +kernel⟩⟩

theorem witness_StepKeepsTheInvariants :
    ∃ t, (coreOf (failed 5#4 (holding 4#61 [0x01#8]))).regs.Inv ∧
      step ((coreOf (failed 5#4 (holding 4#61 [0x01#8]))).present (Instr.request .cmdReset)) = .next t :=
  ⟨_, witness_inv_absorbing, rfl⟩

/-- Registers that stand for the empty message, a one-byte message and a finished message. -/
theorem witness_represents :
    Represents [] (declared 3#61) ∧ Represents [0x61#8] (holding 1#61 [0x61#8]) ∧
    Represents [] { Regs.reset with phase := .finalized, h := sha256 [] } :=
  ⟨⟨rfl, by decide, rfl, rfl, rfl⟩, ⟨by decide, by decide, by decide, by decide +kernel, by decide +kernel⟩,
    ⟨rfl, by decide, rfl, rfl, rfl⟩⟩

/-- The first byte, the last declared word. -/
theorem witness_AcceptedPushExtendsTheMessage :
    isPush (.pushb 0x61#32) = true ∧ Represents [] (declared 3#61) ∧
    pushAdmit (pushedBytes (.pushb 0x61#32)).length (declared 3#61) = .accept ∧
    pushAdmit (pushedBytes (.pushw 0x61#32)).length (declared 4#61) = .accept :=
  ⟨rfl, witness_represents.1, by decide, by decide⟩

/-- Complete messages: one byte, and 56 bytes, the least that needs two final blocks. -/
theorem witness_FinalHashesTheMessage :
    (Represents [0x61#8] (holding 1#61 [0x61#8]) ∧ finalAdmit (holding 1#61 [0x61#8]) = .accept) ∧
    (Represents (List.replicate 56 0x61#8) (holding 56#61 (List.replicate 56 0x61#8)) ∧
      finalAdmit (holding 56#61 (List.replicate 56 0x61#8)) = .accept) :=
  ⟨⟨witness_represents.2.1, by decide +kernel⟩,
    ⟨⟨by decide, by decide, by decide, by decide +kernel, by decide +kernel⟩, by decide +kernel⟩⟩

/-- Each of the three outcomes: the same message, a push's bytes after it, and the empty message. -/
theorem witness_StepKeepsTheMessage :
    (∃ t, Represents [] (declared 3#61) ∧ step (coreOf (declared 3#61)) = .next t) ∧
    (∃ t, step ((coreOf (declared 3#61)).present (Instr.request (.pushb 0x61#32))) = .next t ∧
      t.regs = holding 3#61 [0x61#8]) ∧
    (∃ t, step ((coreOf (holding 1#61 [0x61#8])).present (Instr.request .cmdReset)) = .next t ∧ t.regs = Regs.reset) :=
  ⟨⟨_, witness_represents.1, rfl⟩, ⟨_, rfl, by decide +kernel⟩, ⟨_, rfl, rfl⟩⟩

/-- A message of five bytes, as a byte and an unaligned word (L1-5), and the empty message. -/
theorem witness_HostProtocolYieldsTheDigest :
    ([0x61#8, 0x62#8, 0x63#8, 0x64#8, 0x65#8] : List Byte).length < 2 ^ 61 ∧
    (5#32).toNat = ([0x61#8, 0x62#8, 0x63#8, 0x64#8, 0x65#8] : List Byte).length % 2 ^ 32 ∧
    (0#32).toNat = ([0x61#8, 0x62#8, 0x63#8, 0x64#8, 0x65#8] : List Byte).length / 2 ^ 32 ∧
    (∀ i ∈ [Instr.pushb 0x61#32, .pushw 0x62636465#32], isPush i = true) ∧
    [Instr.pushb 0x61#32, .pushw 0x62636465#32].flatMap pushedBytes = [0x61#8, 0x62#8, 0x63#8, 0x64#8, 0x65#8] ∧
    ([] : List Instr).flatMap pushedBytes = [] := by decide

theorem witness_DigestReadsSerialise : (coreOf doneEmpty).regs.phase = .finalized ∧ 7 < 8 ∧ 3 < 4 := by decide

/-- R111's examples: one block at 55 bytes, two from 56 on, three at 120. -/
theorem witness_BlockCount :
    ([0, 55, 56, 119, 120] : List Nat).map (fun n => (fullBlocks (paddedMessage (List.replicate n 0x61#8))).length) =
      [1, 1, 2, 2, 3] := by decide +kernel

/-- The first and the last schedule word of each clause. -/
theorem witness_schedule_ranges : 0 < 16 ∧ 15 < 16 ∧ 16 ≤ 16 ∧ 16 < 64 ∧ 16 ≤ 63 ∧ 63 < 64 := by decide

/-- R9's range of rotation amounts, at its ends. -/
theorem witness_RotateIsCyclic : 0 < 1 ∧ 1 < 32 ∧ 31 < 32 := by decide

end Sys2Proof.Tests
end

/-! ### The accumulator and reset: what a transaction and power-on reset do to `H` and to the reset table -/

namespace Sys2Proof.Machine

@[simp] theorem absorb_h (bs : List Byte) (r : Regs) :
    (absorb bs r).h = (bs.foldl (fun r b => append b r) r).h := rfl

/-- Compressing the full buffer does not touch the byte count. -/
theorem fill_append (b : Byte) (r : Regs) : fill (append b r) = (fill r + 1) % 64 := by
  rw [← fill_storeByte b r, fill, fill, append_bytecnt, storeByte_bytecnt]

/-- Bytes that reach the end of the block, at most a block of them, compress exactly one block: after the byte that
fills the buffer, too few are left to fill it again (R104, R105). -/
theorem foldl_append_of_full (bs : List Byte) (r : Regs) (hlen : bs.length ≤ 64) (hfull : 64 ≤ fill r + bs.length) :
    ∃ b, (bs.foldl (fun r b => append b r) r).h = compress r.h b := by
  induction bs generalizing r with
  | nil => exact absurd hfull (Nat.not_le.mpr (fill_lt r))
  | cons c cs ih =>
    have hlt := fill_lt r
    simp only [List.length_cons] at hlen hfull
    rw [List.foldl_cons]
    by_cases hlast : fill r = 63
    · have hfill := fill_append c r
      rw [(foldl_append_of_room cs (append c r) (by omega)).1, append_of_last c hlast]
      exact ⟨_, compressBuffer_h _⟩
    · have hfill := fill_storeByte c r
      rw [append_of_room c (by omega)]
      exact ih (storeByte c r) (by omega) (by omega)

/-- An instruction carries at most one word of message bytes. -/
theorem pushedBytes_length_le (i : Instr) : (pushedBytes i).length ≤ 4 := by
  unfold pushedBytes
  split
  · exact (by decide : 1 ≤ 4)
  · exact Nat.le_refl 4
  · exact Nat.zero_le 4

/-- A push leaves `H`, or reaches the end of the block and compresses one (R106, R107). -/
theorem absorb_pushedBytes_h (i : Instr) (r : Regs) :
    (absorb (pushedBytes i) r).h = r.h ∨
      (64 ≤ fill r + (pushedBytes i).length ∧ ∃ b, (absorb (pushedBytes i) r).h = compress r.h b) := by
  have hlen := pushedBytes_length_le i
  rw [absorb_h]
  rcases Nat.lt_or_ge (fill r + (pushedBytes i).length) 64 with hroom | hfull
  · exact .inl (foldl_append_of_room _ r hroom).1
  · exact .inr ⟨hfull, foldl_append_of_full _ r (by omega) hfull⟩

/-- `Pad` compresses one block, or two when the pad byte leaves no room for the length (R109). -/
theorem pad_h (r : Regs) :
    (pad r).h =
      if padThreshold ≤ fill r then
        compress (compress r.h (placePad r).buf) (withLengthField zeroBlock r.mlen)
      else compress r.h (withLengthField (placePad r).buf r.mlen) := by
  unfold pad
  split <;>
    simp only [compressBuffer_h, compressBuffer_buf, compressBuffer_mlen, placeLength_h, placeLength_buf, placePad_h,
      placePad_mlen]

/-- `CMD.FINAL` compresses one or two blocks (R184). -/
theorem finalize_h_cases (r : Regs) :
    (∃ b, (finalize r).h = compress r.h b) ∨ ∃ b b', (finalize r).h = compress (compress r.h b) b' := by
  rw [finalize_h, pad_h]
  split
  · exact .inr ⟨_, _, rfl⟩
  · exact .inl ⟨_, rfl⟩

/-- With power-on reset at the head of the port, the step resets (R240). -/
theorem step_of_powerOnReset {s : State} {x : Option BusRequest} {rest : List PortEvent}
    (hp : s.pending = .powerOnReset x :: rest) : step s = .next (State.powerOnReset { s with pending := rest }) := by
  simp only [step, hp]

/-- Power-on reset leaves the reset table, whatever came before (R240). -/
theorem regs_of_powerOnReset {s t : State} {x : Option BusRequest} {rest : List PortEvent}
    (hp : s.pending = .powerOnReset x :: rest) (h : step s = .next t) : t.regs = Regs.reset := by
  rw [step_of_powerOnReset hp] at h
  cases h
  rfl

/-- CMD.RESET leaves the reset table, whatever came before (R183). -/
theorem regs_of_cmdReset {s t : State} (h : exec .cmdReset s = .next t) : t.regs = Regs.reset :=
  (exec_inv h).1

/-- Settles O44: of the ways an instruction changes the registers (`regsAfter_cases`), only a reset, a push that
reaches the end of the block and CMD.FINAL touch `H`. -/
theorem accumulatorWriters : Obligations.AccumulatorWriters := by
  constructor
  · intro i s t hexec hne
    rw [(exec_inv hexec).1] at hne ⊢
    rcases regsAfter_cases i s.regs with e | ⟨c, e⟩ | ⟨hi, e⟩ | ⟨hi, -, e⟩ | ⟨hi, -, e⟩ | ⟨-, m, e⟩ <;>
      rw [e] at hne ⊢
    · exact absurd rfl hne
    · exact absurd (recordError_h c s.regs) hne
    · exact .inl ⟨hi, reset_h⟩
    · exact .inr (.inr ⟨hi, finalize_phase s.regs, finalize_h_cases s.regs⟩)
    · exact .inr (.inl ⟨hi, (absorb_pushedBytes_h i s.regs).resolve_left hne⟩)
    · exact absurd rfl hne
  · intro s t x rest hp hstep
    rw [regs_of_powerOnReset hp hstep, reset_h]

/-- Settles O15: each of the three resets leaves the registers `Regs.reset`. -/
theorem resetValues : Obligations.ResetValues := by
  intro r hr
  have hreset : r = Regs.reset := by
    rcases hr with rfl | ⟨s, t, hexec, rfl⟩ | ⟨s, t, x, rest, hp, hstep, rfl⟩
    · rfl
    · exact regs_of_cmdReset hexec
    · exact regs_of_powerOnReset hp hstep
  subst hreset
  exact ⟨rfl, reset_phase, reset_err, reset_errcode, reset_mlen, reset_bytecnt, zeroBlock_get⟩

/-- Settles O22: a 61-bit length times eight stays below `2^64`. -/
theorem bitLengthIsExact : Obligations.BitLengthIsExact := by
  intro m
  have := m.isLt
  rw [bitLength_eq rfl, BitVec.toNat_ofNat, Nat.mod_eq_of_lt (by omega), Nat.mul_comm]

end Sys2Proof.Machine

/-! ### The port: which accesses are refused (20_memory.md R55) -/

namespace Sys2Proof

/-- The two low bits of an offset tell whether it is word aligned (R71). -/
theorem lowBits_ofNat_eq_zero_iff (n : Nat) : (BitVec.ofNat 8 n).extractLsb' 0 2 = 0b00#2 ↔ n % 4 = 0 := by
  rw [← BitVec.toNat_inj]
  simp only [BitVec.extractLsb'_toNat, BitVec.toNat_ofNat, Nat.shiftRight_zero]
  omega

/-- A packed transaction fails to decode only when its offset is misaligned (R71). -/
theorem exists_decode_pack_eq_error_iff (wr : Bool) (a : BitVec 8) (d : Word) :
    (∃ e, decode (pack wr a d) = .error e) ↔ a.extractLsb' 0 2 ≠ 0b00#2 := by
  rw [decode_pack]
  by_cases ha : a.extractLsb' 0 2 = 0b00#2
  · cases wr <;> simp [ha]
  · simp [ha]

/-- The three causes of R55, none of which the decoder reports for any other access. -/
theorem exists_decodeRequest_eq_error_iff (r : Machine.BusRequest) :
    (∃ e, decodeRequest r = .error e) ↔ r.offset % 4 ≠ 0 ∨ 0xFF < r.offset ∨ r.width ≠ 32 := by
  unfold decodeRequest
  by_cases hw : r.width = 32
  · by_cases ho : 256 ≤ r.offset
    · have hpast : 0xFF < r.offset := ho
      simp [hw, ho, hpast]
    · have hin : ¬ 0xFF < r.offset := by omega
      rw [if_neg (not_not_intro hw), if_neg ho, exists_decode_pack_eq_error_iff, Ne, lowBits_ofNat_eq_zero_iff]
      simp [hw, hin]
  · simp [hw]

end Sys2Proof

namespace Sys2Proof.Machine

/-- An access that spells an instruction runs it, and the port is left as it was before the access was presented. -/
theorem step_present_of_ok {r : BusRequest} {i : Instr} (s : State) (h : decodeRequest r = .ok i) :
    step (s.present r) = exec i s := by
  simp only [step, present_pending, acceptRequest_ok h]
  rfl

/-- An access that spells no instruction is refused, for the decoder's reason. -/
theorem step_present_of_error {r : BusRequest} {e : DecodeError} (s : State) (h : decodeRequest r = .error e) :
    step (s.present r) = .refused (.noTransaction e) := by
  simp only [step, present_pending, acceptRequest, h]

/-- A step refuses the access presented to it exactly when the decoder does: no instruction's execution is a refusal. -/
theorem step_present_eq_refused_iff (s : State) (r : BusRequest) (e : DecodeError) :
    step (s.present r) = .refused (.noTransaction e) ↔ decodeRequest r = .error e := by
  refine ⟨fun h => ?_, step_present_of_error s⟩
  cases hd : decodeRequest r with
  | ok i =>
    rw [step_present_of_ok s hd, exec_eq] at h
    cases h
  | error e' =>
    rw [step_present_of_error s hd] at h
    cases h
    rfl

/-- Settles O6: the step's refusals are the decoder's, and the decoder refuses on exactly R55's three causes. -/
theorem refusalsAreExactlyTheUncarriableAccesses : Obligations.RefusalsAreExactlyTheUncarriableAccesses := by
  intro s r
  simp only [step_present_eq_refused_iff]
  exact exists_decodeRequest_eq_error_iff r

end Sys2Proof.Machine

/-! ### The canonical encoding: a decoded transaction encodes back to itself, a read with data field 0 (R72) -/

namespace Sys2Proof

/-- Decoding a read looks at its offset only. -/
theorem decode_pack_read (a : BitVec 8) (d : Word) :
    decode (pack false a d) =
      if a.extractLsb' 0 2 ≠ 0b00#2 then .error .misalignedOffset else .ok (decodeRead a) := by
  rw [decode_pack, if_neg Bool.false_ne_true]

/-- The decoder reports a misaligned offset exactly when the offset is misaligned (R71). -/
theorem decode_eq_misalignedOffset_iff (t : Packed) :
    decode t = .error .misalignedOffset ↔ (addrField t).extractLsb' 0 2 ≠ 0b00#2 := by
  unfold decode
  by_cases ha : (addrField t).extractLsb' 0 2 = 0b00#2
  · cases hw : wrField t <;> simp [ha]
  · simp [ha]

/-- A 32-bit access in the window spells the packed transaction of its fields (R70). -/
theorem decodeRequest_of_word (we : Bool) (a : BitVec 8) (d : Word) :
    decodeRequest ⟨we, a.toNat, 32, d⟩ = decode (pack we a d) := by
  have hin : ¬ 256 ≤ a.toNat := Nat.not_le.mpr a.isLt
  rw [decodeRequest, if_neg (not_not_intro rfl), if_neg hin, BitVec.ofNat_toNat, BitVec.setWidth_eq]

/-- What a read spells does not depend on its data, at any offset and width (R72). -/
theorem decodeRequest_read (o w : Nat) (d d' : Word) :
    decodeRequest ⟨false, o, w, d⟩ = decodeRequest ⟨false, o, w, d'⟩ := by
  simp only [decodeRequest, decode_pack_read]

/-- A decoded command word encodes back to itself, whichever of the four rows it is in (R75 to R77). -/
theorem encode_decodeCommand (d : Word) : encode (decodeCommand d) = pack true 0x00#8 d := by
  unfold decodeCommand
  split
  · next h => rw [h]; rfl
  · split
    · next h => rw [h]; rfl
    · split
      · next h => rw [h]; rfl
      · rfl

/-- A transaction to a reserved slot encodes back to itself, in each of the three groups (R82). -/
theorem encode_decode_reserved (g : BitVec 2) (hg : g ≠ 0b00#2) (x : BitVec 4) (d : Word) :
    let a := (g.setWidth 8 <<< 6) ||| x.setWidth 8 <<< 2
    encode (decodeWrite a d) = pack true a d ∧ encode (decodeRead a) = pack false a 0#32 := by
  have hgroup : g = 0b01#2 ∨ g = 0b10#2 ∨ g = 0b11#2 := by revert g; decide
  intro a
  rw [decodeWrite_reserved g hg x d, decodeRead_reserved g hg x]
  rcases hgroup with rfl | rfl | rfl <;> exact ⟨rfl, rfl⟩

/-- At every aligned offset, what is decoded encodes back to the same offset: a write with its data, a read with
data field 0 (R72). -/
theorem encode_decode_of_aligned (a : BitVec 8) (ha : a.extractLsb' 0 2 = 0b00#2) (d : Word) :
    encode (decodeWrite a d) = pack true a d ∧ encode (decodeRead a) = pack false a 0#32 := by
  rcases alignedOffset_cases a ha with rfl | rfl | rfl | rfl | rfl | rfl | rfl | rfl | hdigest | ⟨hg, hreserved⟩
  · exact ⟨encode_decodeCommand d, rfl⟩
  iterate 7 exact ⟨rfl, rfl⟩
  · rw [hdigest, decodeWrite_digest, decodeRead_digest]
    exact ⟨rfl, rfl⟩
  · rw [hreserved]
    exact encode_decode_reserved _ hg _ d

/-- The canonical form of a transaction is the encoding of what it decodes to (R72). -/
theorem encode_of_decode_eq_ok {t : Packed} {i : Instr} (h : decode t = .ok i) : encode i = canonical t := by
  unfold decode at h
  split at h
  · cases h
  · next ha =>
    obtain ⟨hwrite, hread⟩ := encode_decode_of_aligned (addrField t) (not_not.mp ha) (dataField t)
    unfold canonical
    cases hw : wrField t with
    | false =>
      rw [hw] at h
      cases h
      exact hread
    | true =>
      rw [hw] at h
      cases h
      rw [← hw] at hwrite
      exact hwrite.trans (pack_fields t)

/-- The canonical form of a read has data field 0 (R72). -/
theorem dataField_canonical_read {t : Packed} (h : wrField t = false) : dataField (canonical t) = 0#32 := by
  rw [canonical, h, if_neg Bool.false_ne_true, dataField_pack]

end Sys2Proof

namespace Sys2Proof.Machine

/-- A step depends on the access presented to it only through what the access spells. -/
theorem step_present_congr (s : State) {r r' : BusRequest} (h : decodeRequest r = decodeRequest r') :
    step (s.present r) = step (s.present r') := by
  cases hd : decodeRequest r' with
  | ok i => rw [step_present_of_ok s (h.trans hd), step_present_of_ok s hd]
  | error e => rw [step_present_of_error s (h.trans hd), step_present_of_error s hd]

/-- Settles O4: what a read spells is decided by its offset and width, and decoding inverts the encoding up to a
read's data field. -/
theorem readDataFieldIsIgnored : Obligations.ReadDataFieldIsIgnored := by
  refine ⟨fun a d d' => ?_, fun s o w d d' => ?_, fun _ _ => encode_of_decode_eq_ok, fun _ => dataField_canonical_read⟩
  · rw [decode_pack_read, decode_pack_read]
  · exact step_present_congr s (decodeRequest_read o w d d')

/-- Settles O5: the decoder's answer, and through it the step's. -/
theorem misalignedTransactionsAreRefused : Obligations.MisalignedTransactionsAreRefused := by
  refine ⟨decode_eq_misalignedOffset_iff, fun s we a d ha => ?_⟩
  rw [step_present_eq_refused_iff, decodeRequest_of_word, decode_eq_misalignedOffset_iff, addrField_pack]
  exact ha

/-! ### The pseudo-instructions of the host script (30_encoding.md R85) -/

/-- A digest register's offset is the same counted in words and written into the bits `A[4:2]` (R74). -/
theorem hostRegOffset_digest : ∀ i : BitVec 3, hostRegOffset (.digest i) = 0x20#8 ||| i.setWidth 8 <<< 2 := by
  decide

/-- `RD DIGEST[i]` is the read of the digest row (R84, R86). -/
theorem assembleRd_digest (i : BitVec 3) : assembleRd (.digest i) = encode (.rdDigest i) := by
  rw [assembleRd, hostRegOffset_digest]
  rfl

/-- The two words of `SETLEN` are the length's remainder and quotient by `2^32`. -/
theorem setlen_words (n : Length) :
    (n.extractLsb' 0 32).toNat = n.toNat % 2 ^ 32 ∧ ((n.extractLsb' 32 29).setWidth 32).toNat = n.toNat / 2 ^ 32 := by
  have := n.isLt
  simp only [BitVec.extractLsb'_toNat, BitVec.toNat_setWidth, Nat.shiftRight_eq_div_pow]
  omega

/-- Settles O8: the fixed lines are the encodings as they stand; `SETLEN` splits its number, and the digest lines
reach the digest row. -/
theorem pseudoInstructionsExpand : Obligations.PseudoInstructionsExpand := by
  refine ⟨rfl, rfl, rfl, fun _ => rfl, fun _ => rfl, fun n => ⟨_, _, rfl, setlen_words n⟩, rfl, fun i => ?_, ?_⟩
  · rw [assemble, assembleRd_digest]
  · simp only [assemble, assembleRd_digest]
    rfl

end Sys2Proof.Machine

/-! ### The framer: the length writes, the pushes, `Append` and `Pad` (40_framer.md) -/

namespace Sys2Proof

/-- A packed write is its offset's constant with the data word in the low bits (R70). -/
theorem pack_write (a : BitVec 8) (d : Word) : pack true a d = pack true a 0#32 ||| d.setWidth 41 := by
  rw [pack, pack, BitVec.setWidth_zero, BitVec.or_zero]

end Sys2Proof

namespace Sys2Proof.Machine

/-- Storing one entry of a block, as a function of the position. -/
theorem block_set_eq_ofFn (b : Block) (i : Nat) (hi : i < 64) (x : Byte) :
    b.set i x hi = Vector.ofFn fun k => if k.val = i then x else b[k.val] := by
  apply Vector.ext
  intro k hk
  rw [Vector.getElem_ofFn, Vector.getElem_set]
  simp only [eq_comm (a := i)]

/-- Eight bits of a word, as a number. -/
theorem extractLsb'_eq_ofNat {w : Nat} (x : BitVec w) (n : Nat) :
    x.extractLsb' n 8 = BitVec.ofNat 8 (x.toNat / 2 ^ n) := by
  rw [BitVec.extractLsb', Nat.shiftRight_eq_div_pow]

/-! ### Append and Pad -/

/-- Settles O26: `append_of_last` and `append_of_room` at the fill level. -/
theorem appendStoresThenCompresses : Obligations.AppendStoresThenCompresses := by
  intro b r stored
  have hstored : (storeByte b r).buf = stored := block_set_eq_ofFn _ _ (fill_lt r) b
  have hlt : r.bytecnt.toNat % 64 < 64 := fill_lt r
  split
  · next hlast => rw [append_of_last b hlast, compressBuffer, hstored]; rfl
  · next hroom =>
    rw [append_of_room b (show r.bytecnt.toNat % 64 < 63 by omega), ← hstored]
    rfl

/-- `Pad` changes `H` and clears the buffer, and nothing else (R109). -/
theorem pad_frame (r : Regs) : pad r = { r with h := (pad r).h, buf := zeroBlock } := by
  unfold pad
  split <;> rfl

/-- A byte of the length field is a base-256 digit of eight times the length (R34, R109). -/
theorem bitLength_byte (m : Length) (k : Nat) :
    (bitLength m).extractLsb' (8 * (63 - k)) 8 = BitVec.ofNat 8 (m.toNat * 8 / 256 ^ (63 - k)) := by
  rw [extractLsb'_eq_ofNat, bitLengthIsExact m, Nat.pow_mul]

/-- A block with its length field stored, as a function of the position (R109). -/
theorem withLengthField_eq_ofFn (b : Block) (m : Length) :
    withLengthField b m = Vector.ofFn fun k =>
      if 56 ≤ k.val then BitVec.ofNat 8 (m.toNat * 8 / 256 ^ (63 - k.val)) else b[k.val] := by
  apply Vector.ext
  intro k hk
  rw [withLengthField_get, bitLength_byte, Vector.getElem_ofFn]

/-- Settles O21: the blocks of `pad_h`, byte by byte. -/
theorem padBuildsTheFinalBlocks : Obligations.PadBuildsTheFinalBlocks := by
  intro r lengthByte padded last only
  have hpadded : (placePad r).buf = padded := block_set_eq_ofFn _ _ (fill_lt r) _
  have honly : withLengthField padded r.mlen = only := withLengthField_eq_ofFn _ _
  have hlast : withLengthField zeroBlock r.mlen = last := by
    rw [withLengthField_eq_ofFn]
    simp only [zeroBlock_get, last, lengthByte]
  rw [pad_frame, pad_h, hpadded, honly, hlast]
  rfl

/-! ### The pad byte within its block word -/

/-- A bit of a block word is a bit of one of its four bytes, the first byte highest (41_schedule.md R132). -/
theorem getLsbD_blockWords (b : Block) (p : Nat) (hp : p < 16) (j : Nat) (hj : j < 32) :
    ((blockWords b)[p]).getLsbD j = (b[4 * p + (3 - j / 8)]'(by omega)).getLsbD (j % 8) := by
  have hword : (blockWords b)[p] = b[4 * p] ++ b[4 * p + 1] ++ b[4 * p + 2] ++ b[4 * p + 3] := by
    simp only [blockWords, Vector.getElem_ofFn, be32_eq_append]
  rw [hword]
  simp only [BitVec.getLsbD_append]
  interval_cases j <;> rfl

/-- A bit of the pad byte: the highest alone is set. -/
theorem getLsbD_padByte (i : Nat) : (0x80#8).getLsbD i = decide (7 = i) := by
  rw [show 0x80#8 = BitVec.twoPow 8 7 from rfl, BitVec.getLsbD_twoPow, decide_eq_true (by decide : 7 < 8),
    Bool.true_and]

/-- With the buffer zero from the fill level on, the block after the pad byte: message bytes, `0x80`, zeros (R116). -/
theorem placePad_buf_get {r : Regs} (hzero : ∀ (k : Nat) (hk : k < 64), fill r ≤ k → r.buf[k] = 0x00#8)
    (k : Nat) (hk : k < 64) :
    (placePad r).buf[k] = if k = fill r then 0x80#8 else if fill r < k then 0x00#8 else r.buf[k] := by
  simp only [placePad_buf, Vector.getElem_set, eq_comm (a := fill r)]
  split
  · rfl
  · split
    · next hlt => exact hzero k hk hlt.le
    · rfl

/-- Settles O23: bit `j` of word `r / 4` lies in byte `3 - j / 8` of the word, which is the pad byte, a zero byte after
it or a message byte before it. -/
theorem padBitWithinItsWord : Obligations.PadBitWithinItsWord := by
  intro r hzero
  refine ⟨fun p hp hword j hj => ?_, fun k hk hne => ?_⟩
  · rw [getLsbD_blockWords _ p hp j hj, getLsbD_blockWords _ p hp j hj, placePad_buf_get hzero]
    rcases Nat.lt_trichotomy (j / 8) (3 - fill r % 4) with hlater | hpad | hearlier
    · rw [if_neg (by omega), if_pos (by omega), if_neg (by omega), if_pos (by omega), BitVec.getLsbD_zero]
    · rw [if_pos (by omega), getLsbD_padByte]
      by_cases htop : 7 = j % 8
      · rw [if_pos (by omega), decide_eq_true htop]
      · rw [if_neg (by omega), if_pos (by omega), decide_eq_false htop]
    · rw [if_neg (by omega), if_neg (by omega), if_neg (by omega), if_neg (by omega)]
  · rw [placePad_buf_get hzero, if_neg hne]

/-! ### Length writes -/

/-- What a length write with the effect `f` leaves: its checks in their order, with the codes written out (R101,
R102). -/
theorem admitted_mlenAdmit (f : Regs → Regs) (r : Regs) :
    admitted (mlenAdmit r) f r =
      if r.err = true then r
      else if r.phase ≠ .idle then { r with err := true, errcode := 5#4 }
      else f r := by
  unfold mlenAdmit
  split
  · rfl
  · next herr =>
    split
    · exact recordError_of_ok _ (Bool.eq_false_iff.mpr herr)
    · rfl

/-- Settles O24: the checks, then the new length as a number. -/
theorem writeMlenLo : Obligations.WriteMlenLo := by
  refine ⟨fun d => pack_write _ d, fun s d => ?_⟩
  rw [← withMlenLo_toNat, BitVec.ofNat_toNat, BitVec.setWidth_eq, exec_eq, regsAfter, admitted_mlenAdmit]
  rfl

/-- Settles O25: the checks, then the new length as a number. -/
theorem writeMlenHi : Obligations.WriteMlenHi := by
  refine ⟨fun d => pack_write _ d, fun s d => ?_⟩
  rw [← withMlenHi_toNat, BitVec.ofNat_toNat, BitVec.setWidth_eq, exec_eq, regsAfter, admitted_mlenAdmit]
  rfl

/-! ### Pushes -/

/-- What a push leaves: its checks in their order, with the codes written out (R103). -/
theorem push_eq (bs : List Byte) (r : Regs) :
    push bs r =
      if r.err = true then r
      else if r.phase = .finalized then { r with err := true, errcode := 4#4 }
      else if r.mlen.toNat < r.bytecnt.toNat + bs.length then { r with err := true, errcode := 2#4 }
      else absorb bs r := by
  unfold push pushAdmit
  split
  · rfl
  · next herr =>
    have hok : r.err = false := Bool.eq_false_iff.mpr herr
    split
    · exact recordError_of_ok _ hok
    · split
      · exact recordError_of_ok _ hok
      · rfl

/-- Absorbing one byte is one `Append`. -/
theorem absorb_one (b : Byte) (r : Regs) : absorb [b] r = { append b r with phase := .absorbing } := by
  rw [absorb, List.foldl_cons, List.foldl_nil]

/-- Absorbing four bytes is four `Append`s, the first byte first. -/
theorem absorb_four (b0 b1 b2 b3 : Byte) (r : Regs) :
    absorb [b0, b1, b2, b3] r = { append b3 (append b2 (append b1 (append b0 r))) with phase := .absorbing } := by
  simp only [absorb, List.foldl_cons, List.foldl_nil]

/-- The byte of a `DIN_B` write, as a number (30_encoding.md R79). -/
theorem pushBytesB_eq (d : Word) : pushBytesB d = [BitVec.ofNat 8 d.toNat] := by
  rw [pushBytesB, extractLsb'_eq_ofNat, Nat.pow_zero, Nat.div_one]

/-- The bytes of a `DIN_W` write, as numbers (R80). -/
theorem pushBytesW_eq (d : Word) :
    pushBytesW d = [BitVec.ofNat 8 (d.toNat / 2 ^ 24), BitVec.ofNat 8 (d.toNat / 2 ^ 16),
      BitVec.ofNat 8 (d.toNat / 2 ^ 8), BitVec.ofNat 8 d.toNat] := by
  simp only [pushBytesW, bytesBe32, extractLsb'_eq_ofNat, Nat.pow_zero, Nat.div_one]

/-- Settles O27: the checks, then one `Append`. -/
theorem pushByte : Obligations.PushByte := by
  refine ⟨fun d => pack_write _ d, fun s d => ?_⟩
  rw [exec_eq, regsAfter, push_eq, pushBytesB_eq, absorb_one]
  rfl

/-- Settles O28: the checks, then four `Append`s. -/
theorem pushWord : Obligations.PushWord := by
  refine ⟨fun d => pack_write _ d, fun s d => ?_⟩
  rw [exec_eq, regsAfter, push_eq, pushBytesW_eq, absorb_four]
  rfl

end Sys2Proof.Machine

/-! ### The message schedule and the sigma functions (41_schedule.md R130 to R135, 42_compression.md R150, R151) -/

namespace Sys2Proof.Machine

/-- Two bit vectors side by side, as a number: the left one counts in units of `2 ^ m`. -/
theorem toNat_append_eq_add {n m : Nat} (x : BitVec n) (y : BitVec m) :
    (x ++ y).toNat = x.toNat * 2 ^ m + y.toNat := by
  rw [BitVec.toNat_append, ← Nat.shiftLeft_add_eq_or_of_lt y.isLt, Nat.shiftLeft_eq]

/-- `be32` as a number: the bytes are base-256 digits, the first the most significant (00_scope.md R10). -/
theorem be32_toNat (b0 b1 b2 b3 : Byte) :
    (be32 b0 b1 b2 b3).toNat = b0.toNat * 2 ^ 24 + b1.toNat * 2 ^ 16 + b2.toNat * 2 ^ 8 + b3.toNat := by
  rw [be32_eq_append]
  simp only [toNat_append_eq_add]
  omega

/-- Settles O58: the first sixteen words are `be32` of the block's bytes. -/
theorem scheduleStartsWithTheBlock : Obligations.ScheduleStartsWithTheBlock := by
  intro b t ht
  rw [expand_first b t ht, be32_toNat]

/-- Word `16 + n` of the expanded block, from the four earlier words the recurrence names (R133). -/
theorem expand_recurrence (b : Block) (n : Nat) (hn : n < 48) :
    (expand b)[16 + n] =
      (expand b)[n] + sigma0 (expand b)[n + 1] + (expand b)[n + 9] + sigma1 (expand b)[n + 14] := by
  rw [expand_eq_schedule b (n + 1) (16 + n) (by omega) (by omega), schedule_last,
    expand_eq_schedule b n n (by omega) (by omega), expand_eq_schedule b n (n + 1) (by omega) (by omega),
    expand_eq_schedule b n (n + 9) (by omega) (by omega), expand_eq_schedule b n (n + 14) (by omega) (by omega)]

/-- Settles O59: `t = 16 + n`, and `t - 16`, `t - 15`, `t - 7` and `t - 2` are the indices of `expand_recurrence`. -/
theorem scheduleRecurrence : Obligations.ScheduleRecurrence := by
  intro b t hge ht
  obtain ⟨n, rfl⟩ := Nat.exists_eq_add_of_le hge
  rw [expand_recurrence b n (by omega)]
  simp only [Nat.add_sub_cancel_left, show 16 + n - 15 = n + 1 by omega, show 16 + n - 7 = n + 9 by omega,
    show 16 + n - 2 = n + 14 by omega]

/-- Settles O56: the formulas are the definitions, and the corner cases are computed. -/
theorem sigmaFunctions : Obligations.SigmaFunctions := by
  refine ⟨fun _ => rfl, fun _ => rfl, fun _ => rfl, fun _ => rfl, ?_⟩
  decide

end Sys2Proof.Machine

/-! ### Choose, majority and the sixty-four rounds (42_compression.md R152 to R158) -/

namespace Sys2Proof.Machine

/-- Choose at one bit: `e`'s bit decides whose bit is taken (R152). -/
theorem getLsbD_ch (e f g : Word) {j : Nat} (hj : j < 32) :
    (ch e f g).getLsbD j = if e.getLsbD j then f.getLsbD j else g.getLsbD j := by
  simp only [ch, BitVec.getLsbD_xor, BitVec.getLsbD_and, BitVec.getLsbD_not, hj]
  cases e.getLsbD j <;> simp

/-- The exclusive or of the three pairwise conjunctions is the majority of three bits. -/
theorem xor_ands_eq_majority :
    ∀ a b c : Bool, ((a && b) ^^ (a && c) ^^ (b && c)) = decide (2 ≤ [a, b, c].count true) := by
  decide

/-- Majority at one bit (R153). -/
theorem getLsbD_maj (a b c : Word) (j : Nat) :
    (maj a b c).getLsbD j = decide (2 ≤ [a.getLsbD j, b.getLsbD j, c.getLsbD j].count true) := by
  rw [maj, BitVec.getLsbD_xor, BitVec.getLsbD_xor, BitVec.getLsbD_and, BitVec.getLsbD_and, BitVec.getLsbD_and,
    xor_ands_eq_majority]

/-- The word of thirty-two 1 bits is neutral for `&`. -/
theorem ones_and (x : Word) : 0xFFFFFFFF#32 &&& x = x :=
  BitVec.allOnes_and

/-- Choose with all of `e`'s bits 1 is `f`. -/
theorem ch_ones (f g : Word) : ch 0xFFFFFFFF#32 f g = f := by
  simp [ch, ones_and]

/-- Choose with all of `e`'s bits 0 is `g`. -/
theorem ch_zero (f g : Word) : ch 0#32 f g = g := by
  simp [ch, ones_and]

/-- Two equal arguments are a majority. -/
theorem maj_self (x y : Word) : maj x x y = x := by
  simp [maj]

/-- Between opposite arguments the third decides. -/
theorem maj_zero_ones (c : Word) : maj 0#32 0xFFFFFFFF#32 c = c := by
  simp [maj, ones_and]

/-- Settles O57: the two functions bit by bit, then the corner cases. -/
theorem chooseAndMajority : Obligations.ChooseAndMajority :=
  ⟨fun e f g _ hj => getLsbD_ch e f g hj, fun a b c j _ => getLsbD_maj a b c j,
    fun f g => ⟨ch_ones f g, ch_zero f g⟩, maj_self, maj_zero_ones⟩

/-- The first `n` rounds are a left fold over the round indices below `n`, by induction on `n`: round `n` comes last
(R156). -/
theorem rounds_eq_foldl (w : Vector Word 64) (v : Working) (n : Nat) (hn : n ≤ 64) :
    rounds w v n hn =
      (List.finRange n).foldl (fun v t => roundStep roundConstants[t.castLE hn] w[t.castLE hn] v) v := by
  induction n with
  | zero => rfl
  | succ n ih =>
    rw [rounds_succ, ih (by omega), List.finRange_succ_last, List.foldl_append, List.foldl_map]
    rfl

/-- Settles O60: the statement's fold is `rounds_eq_foldl` at 64, with `loadWorking`, `roundStep` and `accumulate`
written out. -/
theorem compressFoldsSixtyFourRounds : Obligations.CompressFoldsSixtyFourRounds := by
  intro h b
  rw [compress, rounds_eq_foldl]
  rfl

end Sys2Proof.Machine

/-! ### The control interface: commands, register reads, ignored writes, `STATE` and the digest (43_control.md) -/

namespace Sys2Proof

/-- The offset of a digest register, as a number (30_encoding.md R74). -/
theorem digestOffset_eq_ofNat : ∀ i : BitVec 3,
    0x20#8 ||| i.setWidth 8 <<< 2 = BitVec.ofNat 8 (0x20 + 4 * i.toNat) := by
  decide

/-- The offset of a reserved slot in each of the three groups, as a number (20_memory.md R52). -/
theorem reservedOffset_eq_ofNat : ∀ x : BitVec 4,
    0x40#8 ||| x.setWidth 8 <<< 2 = BitVec.ofNat 8 (0x40 + 4 * x.toNat) ∧
    0x80#8 ||| x.setWidth 8 <<< 2 = BitVec.ofNat 8 (0x80 + 4 * x.toNat) ∧
    0xC0#8 ||| x.setWidth 8 <<< 2 = BitVec.ofNat 8 (0xC0 + 4 * x.toNat) := by
  decide

end Sys2Proof

namespace Sys2Proof.Machine

/-- A transaction that keeps the registers changes nothing but the port's answer. -/
theorem exec_of_regsAfter_eq {i : Instr} {s : State} (h : regsAfter i s.regs = s.regs) :
    exec i s = .next { s with resp := respAfter i s.regs } := by
  rw [exec_eq, h]

/-! ### Commands -/

/-- Settles O16: the registers are `Regs.reset`, the reset table. -/
theorem resetCommand : Obligations.ResetCommand :=
  ⟨by decide, fun s => exec_eq .cmdReset s⟩

/-- Settles O18: CMD.NOP keeps the registers. -/
theorem nopCommand : Obligations.NopCommand :=
  ⟨by decide, fun _ => exec_of_regsAfter_eq rfl⟩

/-- Settles O19: the registers are those `recordError` leaves for BAD_CMD. -/
theorem reservedCommand : Obligations.ReservedCommand :=
  ⟨fun d => pack_write _ d, fun s d => exec_eq (.cmdRsv d) s⟩

/-- What CMD.FINAL leaves: its checks in their order, with the codes written out (R184). -/
theorem admitted_finalAdmit (f : Regs → Regs) (r : Regs) :
    admitted (finalAdmit r) f r =
      if r.err = true then r
      else if r.phase = .finalized then { r with err := true, errcode := 4#4 }
      else if r.bytecnt.toNat ≠ r.mlen.toNat then { r with err := true, errcode := 3#4 }
      else f r := by
  unfold finalAdmit
  split
  · rfl
  · next herr =>
    have hok : r.err = false := Bool.eq_false_iff.mpr herr
    split
    · exact recordError_of_ok _ hok
    · split
      · exact recordError_of_ok _ hok
      · rfl

/-- Settles O20: the checks, then `finalize`. -/
theorem finalCommand : Obligations.FinalCommand := by
  refine ⟨by decide, fun s => ?_⟩
  rw [exec_eq, regsAfter, admitted_finalAdmit]
  rfl

/-! ### Register reads -/

/-- STATUS is its fields side by side (10_state.md R37). -/
theorem statusWord_eq_append (r : Regs) :
    statusWord r = 0#24 ++ r.errcode ++ 0#1 ++ BitVec.ofBool r.err ++ phaseCode r.phase := by
  apply BitVec.eq_of_getLsbD_eq
  intro i hi
  simp only [statusWord, BitVec.getLsbD_or, BitVec.getLsbD_shiftLeft, BitVec.getLsbD_setWidth, BitVec.getLsbD_append]
  interval_cases i <;> simp

/-- With no error recorded, STATUS reads the code of STATE (R37). -/
theorem statusWord_of_no_error {r : Regs} (herr : r.err = false) (hcode : r.errcode = 0#4) :
    statusWord r = (phaseCode r.phase).setWidth 32 := by
  rw [statusWord, herr, hcode]
  exact BitVec.zero_or

/-- The codes of STATE are 0, 1 and 2 (R35). -/
theorem phaseCode_mem (p : Phase) : (phaseCode p).setWidth 32 ∈ [0x00#32, 0x01#32, 0x02#32] := by
  cases p <;> decide

/-- Settles O31: the layout of `statusWord`; without an error the invariants make ERRCODE 0 (R47.4), and the word is the
code of STATE. -/
theorem readStatus : Obligations.ReadStatus := by
  have hread (s : State) : exec .rdStatus s = .next { s with resp := .readData (statusWord s.regs) } :=
    exec_of_regsAfter_eq rfl
  refine ⟨by decide, fun s => ?_, fun s hinv herr => ⟨_, phaseCode_mem s.regs.phase, ?_⟩⟩
  · rw [hread, statusWord_eq_append]
  · rw [hread, statusWord_of_no_error herr (hinv.no_error_iff_no_code.mp herr)]

/-- The low word of a register, as a number (10_state.md R38, R39). -/
theorem lowWord_eq_ofNat {w : Nat} (x : BitVec w) : x.extractLsb' 0 32 = BitVec.ofNat 32 (x.toNat % 2 ^ 32) := by
  apply BitVec.eq_of_toNat_eq
  rw [BitVec.extractLsb'_toNat, Nat.shiftRight_zero, BitVec.toNat_ofNat, Nat.mod_mod]

/-- The high half of `MLEN`, as a number (R38). -/
theorem mlenHi_eq_ofNat (m : Length) : mlenHi m = BitVec.ofNat 32 (m.toNat / 2 ^ 32) := by
  have := m.isLt
  apply BitVec.eq_of_toNat_eq
  rw [mlenHi, BitVec.toNat_setWidth, BitVec.extractLsb'_toNat, Nat.shiftRight_eq_div_pow, BitVec.toNat_ofNat]
  omega

/-- The high half of `BYTECNT`, as a number (R39). -/
theorem bytecntHi_eq_ofNat (n : DWord) : bytecntHi n = BitVec.ofNat 32 (n.toNat / 2 ^ 32) := by
  rw [bytecntHi, BitVec.extractLsb', Nat.shiftRight_eq_div_pow]

/-- Settles O32: the two halves as numbers. -/
theorem readMlen : Obligations.ReadMlen := by
  refine ⟨by decide, by decide, fun s => ⟨?_, ?_, ?_⟩⟩
  · rw [← lowWord_eq_ofNat]
    exact exec_of_regsAfter_eq rfl
  · rw [← mlenHi_eq_ofNat]
    exact exec_of_regsAfter_eq rfl
  · have := s.regs.mlen.isLt
    omega

/-- Settles O33: the two halves as numbers; the count is at most the 61-bit length (R47.1). -/
theorem readBytecnt : Obligations.ReadBytecnt := by
  refine ⟨by decide, by decide, fun s => ⟨?_, ?_, fun hinv => ?_⟩⟩
  · rw [← lowWord_eq_ofNat]
    exact exec_of_regsAfter_eq rfl
  · rw [← bytecntHi_eq_ofNat]
    exact exec_of_regsAfter_eq rfl
  · have := hinv.count_le_length
    have := hinv.length_bounded
    omega

/-- Settles O35: the registers are kept and the answer is 0, form by form. -/
theorem writeOnlyAndReservedReadZero : Obligations.WriteOnlyAndReservedReadZero := by
  refine ⟨by decide, by decide, by decide, fun x => ?_, fun s x i hi => ?_⟩
  · obtain ⟨h40, h80, hC0⟩ := reservedOffset_eq_ofNat x
    exact ⟨congrArg (pack false · _) h40, congrArg (pack false · _) h80, congrArg (pack false · _) hC0⟩
  · simp only [List.mem_cons, List.not_mem_nil, or_false] at hi
    rcases hi with rfl | rfl | rfl | rfl | rfl | rfl <;> exact exec_of_regsAfter_eq rfl

/-! ### Ignored writes -/

/-- Settles O36: the registers are kept, form by form. -/
theorem ignoredWritesHaveNoEffect : Obligations.IgnoredWritesHaveNoEffect := by
  refine ⟨fun d => ⟨rfl, rfl, rfl⟩, fun j d => congrArg (pack true · d) (digestOffset_eq_ofNat j), fun x d => ?_,
    fun s d j x i hi => ?_⟩
  · obtain ⟨h40, h80, hC0⟩ := reservedOffset_eq_ofNat x
    exact ⟨congrArg (pack true · d) h40, congrArg (pack true · d) h80, congrArg (pack true · d) hC0⟩
  · simp only [List.mem_cons, List.not_mem_nil, or_false] at hi
    rcases hi with rfl | rfl | rfl | rfl | rfl | rfl | rfl <;> exact exec_of_regsAfter_eq rfl

/-! ### The transitions of `STATE` -/

/-- A checked transaction moves `STATE` only when it is accepted: a refusal and an ignored one keep it (R180). -/
theorem admitted_phase (a : Admission) (f : Regs → Regs) (r : Regs) :
    (admitted a f r).phase = if a = .accept then (f r).phase else r.phase := by
  rcases admitted_cases a f r with ⟨rfl, e⟩ | ⟨c, rfl, e⟩ | ⟨rfl, e⟩ <;> rw [e]
  · rfl
  · exact recordError_phase c r
  · rfl

/-- A checked transaction whose effect keeps `STATE` keeps it, accepted or not: the length writes (R101, R102). -/
theorem admitted_phase_of_keeps (a : Admission) {f : Regs → Regs} {r : Regs} (h : (f r).phase = r.phase) :
    (admitted a f r).phase = r.phase := by
  rw [admitted_phase, h, ite_self]

/-- A push makes the core Absorbing exactly when it is accepted (40_framer.md R108). -/
theorem push_phase (bs : List Byte) (r : Regs) :
    (push bs r).phase = if pushAdmit bs.length r = .accept then .absorbing else r.phase := by
  rw [push, admitted_phase, absorb_phase]

/-- Settles O43: instruction by instruction; an accepted CMD.FINAL has `BYTECNT = MLEN` and is not in Finalized. -/
theorem phaseTransitions : Obligations.PhaseTransitions := by
  refine ⟨fun i s t hexec => ?_, fun r _ hcount hacc => ?_, fun n r hfin => ⟨fun hacc => ?_, fun hacc => ?_⟩,
    fun s x rest hp => ⟨_, step_of_powerOnReset hp, rfl⟩⟩
  · rw [(exec_inv hexec).1]
    cases i
    case cmdFinal => exact admitted_phase _ finalize _
    case pushb d => exact push_phase (pushBytesB d) _
    case pushw d => exact push_phase (pushBytesW d) _
    case cmdRsv d => exact recordError_phase _ _
    case wrMlenLo d => exact admitted_phase_of_keeps _ rfl
    case wrMlenHi d => exact admitted_phase_of_keeps _ rfl
    all_goals rfl
  · obtain ⟨-, -, hlen⟩ := finalAdmit_eq_accept.mp hacc
    rw [hcount] at hlen
    exact BitVec.eq_of_toNat_eq hlen.symm
  · obtain ⟨-, hne, -⟩ := pushAdmit_eq_accept.mp hacc
    exact hne hfin
  · obtain ⟨-, hne, -⟩ := finalAdmit_eq_accept.mp hacc
    exact hne hfin

/-! ### The digest -/

/-- Byte `k` of a word is a base-256 digit of it, the first the most significant (00_scope.md R10). -/
theorem bytesBe32_getElem? (w : Word) {k : Nat} (hk : k < 4) :
    (bytesBe32 w)[k]? = some (BitVec.ofNat 8 (w.toNat / 256 ^ (3 - k))) := by
  simp only [bytesBe32, extractLsb'_eq_ofNat]
  interval_cases k <;> rfl

/-- In words serialised one after the other, byte `4i + k` is byte `k` of word `i`. -/
theorem flatMap_bytesBe32_getElem? (ws : List Word) (i : Nat) {k : Nat} (hk : k < 4) :
    (ws.flatMap bytesBe32)[4 * i + k]? = ws[i]?.bind fun w => (bytesBe32 w)[k]? := by
  induction ws generalizing i with
  | nil => rfl
  | cons w ws ih =>
    rw [List.flatMap_cons]
    cases i with
    | zero => rw [Nat.mul_zero, Nat.zero_add, List.getElem?_append_left hk]; rfl
    | succ i =>
      have hlen : (bytesBe32 w).length = 4 := rfl
      rw [List.getElem?_append_right (by omega), hlen, show 4 * (i + 1) + k - 4 = 4 * i + k by omega, ih]
      rfl

/-- In Finalized a digest read returns the accumulator word (R192). -/
theorem digestWord_of_finalized (i : BitVec 3) {r : Regs} (h : r.phase = .finalized) :
    digestWord i r = r.h[i.toNat]'(i.isLt) :=
  if_pos h

/-- Settles O52: the words the reads return are `H`. -/
theorem digestReadsSerialise : Obligations.DigestReadsSerialise := by
  refine ⟨fun h i k hi hk => ?_, fun h => ?_, fun s hfin => ⟨s.regs.h, fun i => ?_, rfl⟩⟩
  · have hword : h.toList[i]? = some h[i] := by simp [hi]
    rw [digestBytes, flatMap_bytesBe32_getElem? _ i hk, hword, Option.bind_some, bytesBe32_getElem? _ hk]
  · simp [digestBytes, bytesBe32, List.length_flatMap]
  · rw [← digestWord_of_finalized i hfin]
    exact exec_of_regsAfter_eq rfl

end Sys2Proof.Machine

/-! ### Errors: which transactions record which code, and what a frozen core does (60_exceptions.md R211 to R219) -/

namespace Sys2Proof.Machine

/-! ### The recorded code -/

/-- The checks of an instruction, in R214's order. A reserved command word is refused always; `recordError` keeps an
earlier error. An instruction without checks is accepted. -/
def admission (i : Instr) (r : Regs) : Admission :=
  match i with
  | .cmdRsv _ => .refuse .badCmd
  | .cmdFinal => finalAdmit r
  | .wrMlenLo _ => mlenAdmit r
  | .wrMlenHi _ => mlenAdmit r
  | .pushb d => pushAdmit (pushBytesB d).length r
  | .pushw d => pushAdmit (pushBytesW d).length r
  | _ => .accept

/-- The `ERRCODE` an answer of the checks leaves when none is recorded yet: 0 unless it refuses (R211). -/
def Admission.code : Admission → BitVec 4
  | .refuse c => errCauseCode c
  | .accept => 0#4
  | .frozen => 0#4

/-- The causes have five codes, none of them 0 (R211). -/
theorem errCauseCode_ne_zero (c : ErrCause) : errCauseCode c ≠ 0#4 := by
  cases c <;> decide

/-- Different causes have different codes (R211). -/
theorem errCauseCode_inj {c c' : ErrCause} : errCauseCode c = errCauseCode c' ↔ c = c' := by
  cases c <;> cases c' <;> decide

/-- The code of a cause comes from a refusal for that cause. -/
theorem Admission.code_eq_errCauseCode_iff {a : Admission} {c : ErrCause} :
    a.code = errCauseCode c ↔ a = .refuse c := by
  cases a with
  | refuse c' => rw [Admission.code, errCauseCode_inj, Admission.refuse.injEq]
  | accept => exact iff_of_false (errCauseCode_ne_zero c).symm Admission.noConfusion
  | frozen => exact iff_of_false (errCauseCode_ne_zero c).symm Admission.noConfusion

/-- No code is above 5 (R211). -/
theorem Admission.code_le (a : Admission) : a.code.toNat ≤ 5 := by
  cases a with
  | refuse c => cases c <;> decide
  | accept => decide
  | frozen => decide

/-- A checked transaction whose effect keeps the error state leaves the code of its checks' answer (R212). -/
theorem admitted_error (a : Admission) {f : Regs → Regs} {r : Regs} (hok : r.err = false) (hcode : r.errcode = 0#4)
    (hferr : (f r).err = r.err) (hfcode : (f r).errcode = r.errcode) :
    (admitted a f r).errcode = a.code ∧ ((admitted a f r).err = true ↔ a.code ≠ 0#4) := by
  cases a with
  | accept => simp [Admission.code, hferr, hfcode, hok, hcode]
  | refuse c => simp [Admission.code, recordError_of_ok c hok, errCauseCode_ne_zero]
  | frozen => simp [Admission.code, hok, hcode]

/-- From a core with no error, every instruction leaves the code of its checks' answer, and `ERR` with it. -/
theorem regsAfter_error (i : Instr) {r : Regs} (hok : r.err = false) (hcode : r.errcode = 0#4) :
    (regsAfter i r).errcode = (admission i r).code ∧
      ((regsAfter i r).err = true ↔ (admission i r).code ≠ 0#4) := by
  cases i
  case cmdFinal =>
    exact admitted_error _ hok hcode ((finalize_err r).trans (pad_err r)) ((finalize_errcode r).trans (pad_errcode r))
  case cmdRsv d => exact admitted_error (.refuse .badCmd) (f := id) hok hcode rfl rfl
  case cmdReset => exact admitted_error .accept (f := resetRegs) hok hcode hok.symm hcode.symm
  case wrMlenLo d => exact admitted_error _ hok hcode rfl rfl
  case wrMlenHi d => exact admitted_error _ hok hcode rfl rfl
  case pushb d => exact admitted_error _ hok hcode (absorb_err _ r) (absorb_errcode _ r)
  case pushw d => exact admitted_error _ hok hcode (absorb_err _ r) (absorb_errcode _ r)
  all_goals exact admitted_error .accept (f := id) hok hcode rfl rfl

/-! ### The causes -/

/-- A push is refused in Finalized, else past the declared length (R103, R214). -/
theorem pushAdmit_eq_refuse_iff {n : Nat} {r : Regs} {c : ErrCause} (hok : r.err = false) :
    pushAdmit n r = .refuse c ↔
      (c = .notAccepting ∧ r.phase = .finalized) ∨
      (c = .overrun ∧ r.phase ≠ .finalized ∧ r.mlen.toNat < r.bytecnt.toNat + n) := by
  unfold pushAdmit
  rw [hok, if_neg Bool.false_ne_true]
  split_ifs with hfin hover
  · simp [hfin, eq_comm (b := c)]
  · simp [hfin, hover, eq_comm (b := c)]
  · simp [hfin, hover]

/-- `CMD.FINAL` is refused in Finalized, else when the pushed bytes are not the declared ones (R184, R214). -/
theorem finalAdmit_eq_refuse_iff {r : Regs} {c : ErrCause} (hok : r.err = false) :
    finalAdmit r = .refuse c ↔
      (c = .notAccepting ∧ r.phase = .finalized) ∨
      (c = .lenMismatch ∧ r.phase ≠ .finalized ∧ r.bytecnt.toNat ≠ r.mlen.toNat) := by
  unfold finalAdmit
  rw [hok, if_neg Bool.false_ne_true]
  split_ifs with hfin hlen
  · simp [hfin, eq_comm (b := c)]
  · simp [hfin, hlen, eq_comm (b := c)]
  · simp [hfin, hlen]

/-- A length write is refused outside Idle (R101, R102). -/
theorem mlenAdmit_eq_refuse_iff {r : Regs} {c : ErrCause} (hok : r.err = false) :
    mlenAdmit r = .refuse c ↔ c = .mlenLocked ∧ r.phase ≠ .idle := by
  unfold mlenAdmit
  rw [hok, if_neg Bool.false_ne_true]
  split_ifs with hidle
  · simp [hidle, eq_comm (b := c)]
  · simp [hidle]

/-- The row of R211 for a cause: the instructions and the registers it names, made disjoint by R214's order. -/
def errCondition (c : ErrCause) (i : Instr) (r : Regs) : Prop :=
  match c with
  | .badCmd => ∃ d, i = .cmdRsv d
  | .overrun => isPush i = true ∧ r.phase ≠ .finalized ∧ r.mlen.toNat < r.bytecnt.toNat + (pushedBytes i).length
  | .lenMismatch => i = .cmdFinal ∧ r.phase ≠ .finalized ∧ r.bytecnt.toNat ≠ r.mlen.toNat
  | .notAccepting => (isPush i = true ∨ i = .cmdFinal) ∧ r.phase = .finalized
  | .mlenLocked => (∃ d, i = .wrMlenLo d ∨ i = .wrMlenHi d) ∧ r.phase ≠ .idle

/-- An instruction is refused for a cause exactly under the condition of the cause's row. -/
theorem admission_eq_refuse_iff (i : Instr) (c : ErrCause) {r : Regs} (hok : r.err = false) :
    admission i r = .refuse c ↔ errCondition c i r := by
  cases i
  case pushb d =>
    refine (pushAdmit_eq_refuse_iff hok).trans ?_
    cases c <;> simp [errCondition, isPush, pushedBytes]
  case pushw d =>
    refine (pushAdmit_eq_refuse_iff hok).trans ?_
    cases c <;> simp [errCondition, isPush, pushedBytes]
  case cmdFinal =>
    refine (finalAdmit_eq_refuse_iff hok).trans ?_
    cases c <;> simp [errCondition, isPush]
  case wrMlenLo d =>
    refine (mlenAdmit_eq_refuse_iff hok).trans ?_
    cases c <;> simp [errCondition, isPush]
  case wrMlenHi d =>
    refine (mlenAdmit_eq_refuse_iff hok).trans ?_
    cases c <;> simp [errCondition, isPush]
  case cmdRsv d =>
    change Admission.refuse .badCmd = .refuse c ↔ _
    cases c <;> simp [errCondition, isPush]
  all_goals
    refine iff_of_false (show Admission.accept ≠ .refuse c from Admission.noConfusion) ?_
    cases c <;> simp [errCondition, isPush]

/-- From a core with no error, `ERRCODE` becomes a cause's code exactly under the condition of the cause's row. -/
theorem errcode_regsAfter_eq_iff (i : Instr) (c : ErrCause) {r : Regs} (hok : r.err = false)
    (hcode : r.errcode = 0#4) : (regsAfter i r).errcode = errCauseCode c ↔ errCondition c i r := by
  rw [(regsAfter_error i hok hcode).1, Admission.code_eq_errCauseCode_iff, admission_eq_refuse_iff i c hok]

/-- Settles O40: the five rows of `errCondition`; the code and `ERR` come from the answer of the checks. -/
theorem errorCodesHaveTheirCauses : Obligations.ErrorCodesHaveTheirCauses := by
  intro i s t hok hcode hexec
  have hcause (c : ErrCause) := errcode_regsAfter_eq_iff i c hok hcode
  obtain ⟨hcode', herr'⟩ := regsAfter_error i hok hcode
  rw [(exec_inv hexec).1]
  refine ⟨hcause .badCmd, hcause .overrun, hcause .lenMismatch, hcause .notAccepting, hcause .mlenLocked, ?_, ?_⟩
  · rw [hcode']
    exact Admission.code_le _
  · rw [herr', hcode']

/-! ### The frozen core -/

/-- While `ERR = 1`, only CMD.RESET changes a register: a second error is not recorded and no check accepts (R213). -/
theorem regsAfter_of_err {i : Instr} {r : Regs} (herr : r.err = true) (hi : i ≠ .cmdReset) : regsAfter i r = r := by
  obtain ⟨hpush, hfinal, hmlen⟩ := admissions_frozen herr
  rcases regsAfter_cases i r with e | ⟨c, e⟩ | ⟨hreset, -⟩ | ⟨-, hacc, -⟩ | ⟨-, hacc, -⟩ | ⟨hacc, -⟩
  · exact e
  · rw [e, recordError_of_err c herr]
  · exact absurd hreset hi
  · rw [hfinal] at hacc; cases hacc
  · rw [hpush] at hacc; cases hacc
  · rw [hmlen] at hacc; cases hacc

/-- A step of a frozen core keeps the registers or resets them (R213, R218). -/
theorem step_regs_of_err {s t : State} (herr : s.regs.err = true) (h : step s = .next t) :
    t.regs = s.regs ∨ t.regs = Regs.reset := by
  rcases step_cases h with ⟨-, rfl⟩ | ⟨x, rest, hp, -⟩ | ⟨r, rest, i, -, -, hexec⟩
  · exact .inl rfl
  · exact .inr (regs_of_powerOnReset hp h)
  · by_cases hi : i = .cmdReset
    · subst hi
      exact .inr (regs_of_cmdReset hexec)
    · exact .inl ((exec_inv hexec).1.trans (regsAfter_of_err herr hi))

/-! ### Reads of the window -/

/-- At a digest register's offset the window holds the digest word (10_state.md R43; 20_memory.md R52). -/
theorem windowRead_digest (i : BitVec 3) (r : Regs) :
    windowRead (0x20#8 ||| i.setWidth 8 <<< 2) r = digestWord i r := by
  obtain ⟨-, -, h04, h08, h0C, h10, h14, -, -, -, hindex⟩ := digestOffset_fields i
  have hrange : 0x20 ≤ (0x20#8 ||| i.setWidth 8 <<< 2).toNat ∧ (0x20#8 ||| i.setWidth 8 <<< 2).toNat ≤ 0x3C := by
    revert i; decide
  rw [windowRead, if_neg h04, if_neg h08, if_neg h0C, if_neg h10, if_neg h14, if_pos hrange, hindex]

/-- At a reserved offset the window holds 0 (20_memory.md R53). -/
theorem windowRead_reserved (g : BitVec 2) (hg : g ≠ 0b00#2) (x : BitVec 4) (r : Regs) :
    windowRead ((g.setWidth 8 <<< 6) ||| x.setWidth 8 <<< 2) r = 0#32 := by
  obtain ⟨-, -, h04, h08, h0C, h10, h14, -⟩ := reservedOffset_fields g x hg
  have hpast : ¬ (0x20 ≤ ((g.setWidth 8 <<< 6) ||| x.setWidth 8 <<< 2).toNat ∧
      ((g.setWidth 8 <<< 6) ||| x.setWidth 8 <<< 2).toNat ≤ 0x3C) := by
    revert g x; decide
  rw [windowRead, if_neg h04, if_neg h08, if_neg h0C, if_neg h10, if_neg h14, if_neg hpast]

/-- The read that an aligned offset decodes to keeps the registers and returns what the window holds there
(20_memory.md R52, R53, R59). -/
theorem exec_decodeRead (s : State) (a : BitVec 8) (ha : a.extractLsb' 0 2 = 0b00#2) :
    exec (decodeRead a) s = .next { s with resp := .readData (windowRead a s.regs) } := by
  rcases alignedOffset_cases a ha with rfl | rfl | rfl | rfl | rfl | rfl | rfl | rfl | hdigest | ⟨hg, hreserved⟩
  iterate 8 exact exec_of_regsAfter_eq rfl
  · rw [hdigest, decodeRead_digest, windowRead_digest]
    exact exec_of_regsAfter_eq rfl
  · rw [hreserved, decodeRead_reserved _ hg, windowRead_reserved _ hg]
    split_ifs <;> exact exec_of_regsAfter_eq rfl

/-- An aligned read presented at the port returns what the window holds there, whatever its data field, and leaves the
rest of the state. -/
theorem step_present_read (s : State) (a : BitVec 8) (d : Word) (ha : a.extractLsb' 0 2 = 0b00#2) :
    step (s.present ⟨false, a.toNat, 32, d⟩) = .next { s with resp := .readData (windowRead a s.regs) } := by
  have hdecode : decodeRequest ⟨false, a.toNat, 32, d⟩ = .ok (decodeRead a) := by
    rw [decodeRequest_of_word, decode_pack_read, if_neg (not_not_intro ha)]
  rw [step_present_of_ok s hdecode, exec_decodeRead s a ha]

/-- Settles O41: a frozen core keeps its registers or resets them, to Idle; the reads of the window do not look at
`ERR`. -/
theorem frozenCore : Obligations.FrozenCore := by
  refine fun s herr => ⟨fun i t hi hexec => ?_, fun t hstep hfin => ?_, step_present_read s,
    fun i => exec_of_regsAfter_eq rfl⟩
  · exact (exec_inv hexec).1.trans (regsAfter_of_err herr hi)
  · rcases step_regs_of_err herr hstep with hkeep | hreset
    · rw [← hkeep, hfin]
    · rw [hreset, reset_phase] at hfin
      cases hfin

end Sys2Proof.Machine

/-! ### Decoding inverts encoding, and the rows of the opcode table (30_encoding.md R86, R87) -/

namespace Sys2Proof

/-- An aligned transaction decodes by the half of R87 its direction selects. -/
theorem decode_pack_of_aligned (wr : Bool) {a : BitVec 8} (ha : a.extractLsb' 0 2 = 0b00#2) (d : Word) :
    decode (pack wr a d) = .ok (if wr then decodeWrite a d else decodeRead a) := by
  rw [decode_pack, if_neg (not_not_intro ha)]
  cases wr <;> rfl

/-- A command word decodes to the reserved command exactly when it is not valid (R77). -/
theorem decodeCommand_eq_cmdRsv_iff (d : Word) : decodeCommand d = .cmdRsv d ↔ validCommandWord d = false := by
  rw [← Bool.not_eq_true, validCommandWord_iff]
  unfold decodeCommand
  split_ifs <;> simp_all

/-- A transaction to a reserved slot decodes to the row of its group (R82). -/
theorem decode_pack_reserved (wr : Bool) (g : BitVec 2) (hg : g ≠ 0b00#2) (x : BitVec 4) (d : Word) :
    decode (pack wr ((g.setWidth 8 <<< 6) ||| x.setWidth 8 <<< 2) d) =
      .ok (if wr then (if g = 0b01#2 then .wrRsv40 x d else if g = 0b10#2 then .wrRsv80 x d else .wrRsvC0 x d)
        else if g = 0b01#2 then .rdRsv40 x else if g = 0b10#2 then .rdRsv80 x else .rdRsvC0 x) := by
  rw [decode_pack_of_aligned wr (reservedOffset_fields g x hg).1, decodeWrite_reserved g hg, decodeRead_reserved g hg]

/-- Settles O2: the offset of each row is aligned and selects its row; the reserved command is what is left of the
command words. -/
theorem decodeInvertsEncode : Obligations.DecodeInvertsEncode := by
  intro i hwf
  cases i
  case cmdRsv d =>
    have hinvalid : validCommandWord d = false := (Bool.not_eq_true' _).mp hwf
    exact (decode_pack_of_aligned true rfl d).trans (congrArg _ ((decodeCommand_eq_cmdRsv_iff d).mpr hinvalid))
  case wrDigest j d =>
    exact (decode_pack_of_aligned true (digestOffset_fields j).1 d).trans (congrArg _ (decodeWrite_digest j d))
  case rdDigest j =>
    exact (decode_pack_of_aligned false (digestOffset_fields j).1 _).trans (congrArg _ (decodeRead_digest j))
  case wrRsv40 x d => exact decode_pack_reserved true 0b01#2 (by decide) x d
  case wrRsv80 x d => exact decode_pack_reserved true 0b10#2 (by decide) x d
  case wrRsvC0 x d => exact decode_pack_reserved true 0b11#2 (by decide) x d
  case rdRsv40 x => exact decode_pack_reserved false 0b01#2 (by decide) x _
  case rdRsv80 x => exact decode_pack_reserved false 0b10#2 (by decide) x _
  case rdRsvC0 x => exact decode_pack_reserved false 0b11#2 (by decide) x _
  all_goals exact decode_pack_of_aligned _ rfl _

/-- Settles O7: `validCommandWord` is R77's condition. -/
theorem reservedCommandWords : Obligations.ReservedCommandWords := by
  intro d
  have hdecode : decode (pack true 0x00#8 d) = .ok (decodeCommand d) := decode_pack_of_aligned true rfl d
  rw [hdecode, Except.ok.injEq, decodeCommand_eq_cmdRsv_iff, ← Bool.not_eq_true]
  simp only [validCommandWord, Bool.and_eq_true, Bool.or_eq_true, beq_iff_eq, or_assoc]

/-- Settles O1: the decoder run on each word. -/
theorem specTransactionsDecode : Obligations.SpecTransactionsDecode := by
  unfold Obligations.SpecTransactionsDecode
  decide

/-! ### Rows of the opcode table -/

/-- What the decoder gives for a command word is well formed (R77). -/
theorem decodeCommand_wf (d : Word) : (decodeCommand d).wf = true := by
  cases hvalid : validCommandWord d with
  | true => rcases (validCommandWord_iff d).mp hvalid with rfl | rfl | rfl <;> rfl
  | false =>
    rw [(decodeCommand_eq_cmdRsv_iff d).mpr hvalid, Instr.wf, hvalid]
    rfl

/-- At every aligned offset, what is decoded is well formed. -/
theorem decode_wf_of_aligned (a : BitVec 8) (ha : a.extractLsb' 0 2 = 0b00#2) (d : Word) :
    (decodeWrite a d).wf = true ∧ (decodeRead a).wf = true := by
  rcases alignedOffset_cases a ha with rfl | rfl | rfl | rfl | rfl | rfl | rfl | rfl | hdigest | ⟨hg, hreserved⟩
  · exact ⟨decodeCommand_wf d, rfl⟩
  iterate 7 exact ⟨rfl, rfl⟩
  · rw [hdigest, decodeWrite_digest, decodeRead_digest]
    exact ⟨rfl, rfl⟩
  · rw [hreserved, decodeWrite_reserved _ hg, decodeRead_reserved _ hg]
    constructor <;> split_ifs <;> rfl

/-- An aligned transaction decodes, to a well-formed instruction. -/
theorem exists_decode_of_aligned {t : Packed} (ha : (addrField t).extractLsb' 0 2 = 0b00#2) :
    ∃ i, decode t = .ok i ∧ i.wf = true := by
  obtain ⟨hwrite, hread⟩ := decode_wf_of_aligned (addrField t) ha (dataField t)
  have hdecode := decode_pack_of_aligned (wrField t) ha (dataField t)
  rw [pack_fields] at hdecode
  refine ⟨_, hdecode, ?_⟩
  split
  · exact hwrite
  · exact hread

open Laws.EncodeMatchesTable in
/-- Every row covers the encodings of its instructions (R86). -/
theorem tableRow_covers_encode : (i : Instr) → (tableRow i).covers (encode i)
  | .cmdNop => cmdNop
  | .cmdReset => cmdReset
  | .cmdFinal => cmdFinal
  | .cmdRsv d => cmdRsv d
  | .wrStatus d => wrStatus d
  | .wrMlenLo d => wrMlenLo d
  | .wrMlenHi d => wrMlenHi d
  | .wrBytecntLo d => wrBytecntLo d
  | .wrBytecntHi d => wrBytecntHi d
  | .pushw d => pushw d
  | .pushb d => pushb d
  | .wrDigest j d => wrDigest j d
  | .wrRsv40 x d => wrRsv40 x d
  | .wrRsv80 x d => wrRsv80 x d
  | .wrRsvC0 x d => wrRsvC0 x d
  | .rdCmd => rdCmd
  | .rdStatus => rdStatus
  | .rdMlenLo => rdMlenLo
  | .rdMlenHi => rdMlenHi
  | .rdBytecntLo => rdBytecntLo
  | .rdBytecntHi => rdBytecntHi
  | .rdDinW => rdDinW
  | .rdDinB => rdDinB
  | .rdDigest j => rdDigest j
  | .rdRsv40 x => rdRsv40 x
  | .rdRsv80 x => rdRsv80 x
  | .rdRsvC0 x => rdRsvC0 x

/-- The row of a read masks the data field out (R72). -/
theorem dataField_mask_of_read {i : Instr} (h : wrField (encode i) = false) : dataField (tableRow i).mask = 0#32 := by
  cases i
  iterate 15 exact absurd ((wrField_pack _ _ _).symm.trans h) (by decide)
  all_goals simp [tableRow, dataField]

/-- A row that masks the data field out covers a transaction whatever its data field is. -/
theorem covers_pack_congr {r : TableRow} (hm : dataField r.mask = 0#32) (wr : Bool) (a : BitVec 8) (d d' : Word) :
    r.covers (pack wr a d) ↔ r.covers (pack wr a d') := by
  unfold TableRow.covers
  rw [← pack_fields r.mask, pack_and, pack_and, hm, BitVec.and_zero, BitVec.and_zero]

/-- The row of what a transaction decodes to covers the transaction, not only its canonical form. -/
theorem tableRow_covers_of_decode_eq_ok {t : Packed} {i : Instr} (h : decode t = .ok i) : (tableRow i).covers t := by
  have hcanonical := encode_of_decode_eq_ok h
  have hcovers := tableRow_covers_encode i
  rw [hcanonical] at hcovers
  cases hw : wrField t with
  | true => rwa [canonical, hw, if_pos rfl] at hcovers
  | false =>
    rw [canonical, hw, if_neg Bool.false_ne_true] at hcanonical hcovers
    rw [← pack_fields t, hw]
    refine (covers_pack_congr (dataField_mask_of_read ?_) _ _ _ _).mp hcovers
    rw [hcanonical, wrField_pack]

/-- One instruction of each row of R86, in the order of the constructors. -/
def rowInstrs : List Instr :=
  [.cmdNop, .cmdReset, .cmdFinal, .cmdRsv 0x3#32, .wrStatus 0#32, .wrMlenLo 0#32, .wrMlenHi 0#32, .wrBytecntLo 0#32,
    .wrBytecntHi 0#32, .pushw 0#32, .pushb 0#32, .wrDigest 0#3 0#32, .wrRsv40 0#4 0#32, .wrRsv80 0#4 0#32,
    .wrRsvC0 0#4 0#32, .rdCmd, .rdStatus, .rdMlenLo, .rdMlenHi, .rdBytecntLo, .rdBytecntHi, .rdDinW, .rdDinB,
    .rdDigest 0#3, .rdRsv40 0#4, .rdRsv80 0#4, .rdRsvC0 0#4]

/-- Every instruction's row is that of one of `rowInstrs`. -/
theorem exists_rowInstr (i : Instr) : ∃ k ∈ rowInstrs, tableRow i = tableRow k := by
  have hindex : i.ctorIdx < rowInstrs.length := by cases i <;> exact of_decide_eq_true rfl
  exact ⟨rowInstrs[i.ctorIdx], List.getElem_mem hindex, by cases i <;> rfl⟩

/-- Two rows that cover one transaction agree on the bits both look at. -/
theorem patterns_agree_of_covers {r r' : TableRow} {t : Packed} (h : r.covers t) (h' : r'.covers t) :
    r.pattern &&& r'.mask = r'.pattern &&& r.mask := by
  rw [← h, ← h', BitVec.and_assoc, BitVec.and_assoc, BitVec.and_comm r.mask]

/-- The rows of R86 that agree on the bits both look at: equal ones, and a command with the reserved command. -/
theorem rowInstrs_overlap : ∀ i ∈ rowInstrs, ∀ j ∈ rowInstrs,
    (tableRow i).pattern &&& (tableRow j).mask = (tableRow j).pattern &&& (tableRow i).mask →
    i = j ∨ ((tableRow i).fullMask = true ∧ j = .cmdRsv 0x3#32) ∨
      ((tableRow j).fullMask = true ∧ i = .cmdRsv 0x3#32) := by
  decide +kernel

/-- Two different rows that cover one transaction are a command's row and the reserved command's. -/
theorem tableRow_overlap {i j : Instr} {t : Packed} (hi : (tableRow i).covers t) (hj : (tableRow j).covers t)
    (hne : tableRow j ≠ tableRow i) :
    ((tableRow i).fullMask = true ∧ tableRow j = tableRow (.cmdRsv 0x3#32)) ∨
      ((tableRow j).fullMask = true ∧ tableRow i = tableRow (.cmdRsv 0x3#32)) := by
  obtain ⟨i', hi', ei⟩ := exists_rowInstr i
  obtain ⟨j', hj', ej⟩ := exists_rowInstr j
  rw [ei] at hi hne ⊢
  rw [ej] at hj hne ⊢
  rcases rowInstrs_overlap i' hi' j' hj' (patterns_agree_of_covers hi hj) with rfl | ⟨hfull, rfl⟩ | ⟨hfull, rfl⟩
  · exact absurd rfl hne
  · exact .inl ⟨hfull, rfl⟩
  · exact .inr ⟨hfull, rfl⟩

/-- A full-mask row covers one transaction only, the encoding of its command, so what it covers decodes to it. -/
theorem decode_of_fullMask {j : Instr} {t : Packed} (hfull : (tableRow j).fullMask = true)
    (hj : (tableRow j).covers t) : decode t = .ok j := by
  have hmask : (tableRow j).mask = BitVec.allOnes 41 := beq_iff_eq.mp hfull
  have ht : t = (tableRow j).pattern := by rw [← hj, hmask, BitVec.and_allOnes]
  subst ht
  cases j
  iterate 3 decide
  all_goals simp [tableRow, TableRow.fullMask] at hfull

/-- Settles O3: a transaction that another row covers too is a command, since `decode_of_fullMask` gives the command
whenever a command's row covers. -/
theorem alignedTransactionsHaveOneRow : Obligations.AlignedTransactionsHaveOneRow := by
  intro t ha
  obtain ⟨i, hi, hwf⟩ := exists_decode_of_aligned ha
  have hcovers := tableRow_covers_of_decode_eq_ok hi
  refine ⟨i, hi, hwf, hcovers, fun j hj hne => ?_⟩
  refine (tableRow_overlap hcovers hj hne).resolve_right fun ⟨hfull, _⟩ => hne ?_
  have hj' := decode_of_fullMask hfull hj
  rw [hi] at hj'
  cases hj'
  rfl

end Sys2Proof

/-! ### The step: what it executes, what it depends on, and what reset leaves -/

namespace Sys2Proof.Machine

/-- Settles O9: the access is accepted as the instruction it decodes to. -/
theorem stepRunsTheDecodedInstruction : Obligations.StepRunsTheDecodedInstruction := by
  intro s r rest i hp hdecode
  simp only [step, hp, acceptRequest_ok hdecode]

/-- The access a host makes for a well-formed instruction decodes to it. -/
theorem decodeRequest_request {i : Instr} (hwf : i.wf = true) : decodeRequest i.request = .ok i := by
  rw [Instr.request, decodeRequest_of_word, pack_fields]
  exact decodeInvertsEncode i hwf

/-- Settles O10: the presented access decodes to the instruction. -/
theorem issuedInstructionRuns : Obligations.IssuedInstructionRuns :=
  fun s _ hwf => step_present_of_ok s (decodeRequest_request hwf)

/-- Settles O11: power-on reset does not look at the transaction in progress. -/
theorem powerOnResetWins : Obligations.PowerOnResetWins :=
  fun _ _ _ hp => ⟨_, step_of_powerOnReset hp, rfl, rfl⟩

/-- Settles O12: the core waits. -/
theorem waitingCoreKeepsItsState : Obligations.WaitingCoreKeepsItsState := by
  intro s hp
  simp only [step, hp]

/-- Every transaction answers at the port (20_memory.md R60). -/
theorem respAfter_ne_none (i : Instr) (r : Regs) : respAfter i r ≠ .none := by
  cases i <;> exact Response.noConfusion

/-- Settles O13: `exec_eq` gives the next state. -/
theorem everyInstructionCompletes : Obligations.EveryInstructionCompletes :=
  fun i s => ⟨_, exec_eq i s, rfl, respAfter_ne_none i s.regs⟩

/-- Settles O14: `regsAfter` and `respAfter` are functions of the registers. -/
theorem onlyRegistersSurvive : Obligations.OnlyRegistersSurvive := by
  intro i s s' t t' hregs hexec hexec'
  obtain ⟨ht, hresp, -⟩ := exec_inv hexec
  obtain ⟨ht', hresp', -⟩ := exec_inv hexec'
  rw [ht, hresp, ht', hresp', hregs]
  exact ⟨rfl, rfl⟩

/-- Settles O17: both leave the reset table. -/
theorem resetCommandEqualsPowerOnReset : Obligations.ResetCommandEqualsPowerOnReset :=
  fun _ _ _ _ _ _ hexec hp hstep => (regs_of_cmdReset hexec).trans (regs_of_powerOnReset hp hstep).symm

/-- Outside Finalized a digest read returns 0 (43_control.md R192). -/
theorem digestWord_of_not_finalized (i : BitVec 3) {r : Regs} (h : r.phase ≠ .finalized) : digestWord i r = 0#32 :=
  if_neg h

/-- Settles O34: the answer is `digestWord`, and `ERR` plays no part in it. -/
theorem readDigest : Obligations.ReadDigest := by
  have hread (s : State) (i : BitVec 3) :
      exec (.rdDigest i) s = .next { s with resp := .readData (digestWord i s.regs) } :=
    exec_of_regsAfter_eq rfl
  refine ⟨by decide, fun s i => ⟨fun hfin => ?_, fun hfin => ?_⟩⟩
  · rw [hread, digestWord_of_finalized i hfin]
  · rw [hread, digestWord_of_not_finalized i hfin]

/-- Settles O37: the read at an aligned offset returns the window's word there. -/
theorem everyWindowReadHasNoSideEffect : Obligations.EveryWindowReadHasNoSideEffect :=
  step_present_read

/-! ### Recorded errors -/

/-- Settles O39: of the ways an instruction changes the registers, only `recordError` sets `ERR`. -/
theorem errorsArePrecise : Obligations.ErrorsArePrecise := by
  intro i s t hok hexec herr
  rw [(exec_inv hexec).1] at herr ⊢
  rcases regsAfter_cases i s.regs with e | ⟨c, e⟩ | ⟨-, e⟩ | ⟨-, -, e⟩ | ⟨-, -, e⟩ | ⟨-, m, e⟩ <;> rw [e] at herr ⊢
  case inr.inl => exact ⟨c, recordError_of_ok c hok⟩
  all_goals simp [hok] at herr

/-- Settles O42: a frozen core's instructions other than CMD.RESET keep the registers. -/
theorem onlyResetClearsError : Obligations.OnlyResetClearsError := by
  intro s t herr hstep hchanged
  rcases step_cases hstep with ⟨-, rfl⟩ | ⟨x, rest, hp, -⟩ | ⟨r, rest, i, hp, hdecode, hexec⟩
  · exact absurd ⟨herr, rfl⟩ hchanged
  · exact .inl ⟨x, rest, hp⟩
  · by_cases hi : i = .cmdReset
    · subst hi
      exact .inr ⟨r, rest, hp, hdecode⟩
    · have hkeep : t.regs = s.regs := (exec_inv hexec).1.trans (regsAfter_of_err herr hi)
      exact absurd ⟨hkeep ▸ herr, hkeep ▸ rfl⟩ hchanged

/-! ### Noninterference: the accumulator and the buffer do not reach the port outside Finalized (R192) -/

namespace SameButHash

variable {r r' : Regs}

/-- The checks of a push do not look at the accumulator or the buffer. -/
theorem pushAdmit_eq (h : SameButHash r r') (n : Nat) : pushAdmit n r = pushAdmit n r' := by
  obtain ⟨hphase, herr, -, hmlen, hcount⟩ := h
  simp only [pushAdmit, hphase, herr, hmlen, hcount]

/-- Nor do those of CMD.FINAL. -/
theorem finalAdmit_eq (h : SameButHash r r') : finalAdmit r = finalAdmit r' := by
  obtain ⟨hphase, herr, -, hmlen, hcount⟩ := h
  simp only [finalAdmit, hphase, herr, hmlen, hcount]

/-- Nor do those of a length write. -/
theorem mlenAdmit_eq (h : SameButHash r r') : mlenAdmit r = mlenAdmit r' := by
  obtain ⟨hphase, herr, -, -, -⟩ := h
  simp only [mlenAdmit, hphase, herr]

/-- Recording an error keeps the likeness. -/
theorem recordError (h : SameButHash r r') (c : ErrCause) : SameButHash (recordError c r) (recordError c r') := by
  obtain ⟨hphase, herr, hcode, hmlen, hcount⟩ := h
  unfold Machine.recordError
  rw [herr]
  split
  · exact ⟨hphase, herr, hcode, hmlen, hcount⟩
  · exact ⟨hphase, rfl, rfl, hmlen, hcount⟩

/-- A checked transaction keeps the likeness if its effect does. -/
theorem admitted (h : SameButHash r r') {a a' : Admission} (ha : a = a') {f : Regs → Regs}
    (hf : SameButHash (f r) (f r')) : SameButHash (admitted a f r) (admitted a' f r') := by
  subst ha
  cases a with
  | accept => exact hf
  | refuse c => exact h.recordError c
  | frozen => exact h

/-- So does a push, whose count and answer do not depend on the bytes held (40_framer.md R103). -/
theorem push (h : SameButHash r r') (bs : List Byte) : SameButHash (push bs r) (push bs r') := by
  refine h.admitted (h.pushAdmit_eq _) ?_
  obtain ⟨-, herr, hcode, hmlen, hcount⟩ := h
  simp [SameButHash, herr, hcode, hmlen, hcount]

/-- So does CMD.FINAL's effect. -/
theorem finalize (h : SameButHash r r') : SameButHash (finalize r) (finalize r') := by
  obtain ⟨-, herr, hcode, hmlen, hcount⟩ := h
  simp [SameButHash, herr, hcode, hmlen, hcount]

/-- A new length, made from the old one, keeps the likeness. -/
theorem withMlen (h : SameButHash r r') (f : Length → Length) :
    SameButHash { r with mlen := f r.mlen } { r' with mlen := f r'.mlen } := by
  obtain ⟨hphase, herr, hcode, hmlen, hcount⟩ := h
  exact ⟨hphase, herr, hcode, congrArg f hmlen, hcount⟩

/-- Every instruction keeps the likeness. -/
theorem regsAfter (h : SameButHash r r') (i : Instr) : SameButHash (regsAfter i r) (regsAfter i r') := by
  cases i
  case cmdReset => exact ⟨rfl, rfl, rfl, rfl, rfl⟩
  case cmdRsv d => exact h.recordError _
  case cmdFinal => exact h.admitted h.finalAdmit_eq h.finalize
  case wrMlenLo d => exact h.admitted h.mlenAdmit_eq (h.withMlen (withMlenLo · d))
  case wrMlenHi d => exact h.admitted h.mlenAdmit_eq (h.withMlen (withMlenHi · d))
  case pushw d => exact h.push _
  case pushb d => exact h.push _
  all_goals exact h

/-- Outside Finalized every instruction returns the same. -/
theorem respAfter_eq (h : SameButHash r r') (hfin : r.phase ≠ .finalized) (i : Instr) :
    respAfter i r = respAfter i r' := by
  obtain ⟨hphase, herr, hcode, hmlen, hcount⟩ := h
  cases i
  case rdStatus => simp only [respAfter, statusWord, hphase, herr, hcode]
  case rdMlenLo => simp only [respAfter, hmlen]
  case rdMlenHi => simp only [respAfter, hmlen]
  case rdBytecntLo => simp only [respAfter, hcount]
  case rdBytecntHi => simp only [respAfter, hcount]
  case rdDigest j =>
    simp only [respAfter, digestWord_of_not_finalized j hfin, digestWord_of_not_finalized j (hphase ▸ hfin)]
  all_goals rfl

end SameButHash

/-- Settles O38: both halves of an instruction keep the likeness. -/
theorem noPartialDigestIsReadable : Obligations.NoPartialDigestIsReadable := by
  intro i s s' t t' hsame hfin hexec hexec'
  obtain ⟨ht, hresp, -⟩ := exec_inv hexec
  obtain ⟨ht', hresp', -⟩ := exec_inv hexec'
  rw [ht, hresp, ht', hresp']
  exact ⟨hsame.respAfter_eq hfin i, hsame.regsAfter i⟩

end Sys2Proof.Machine

/-! ### Every step keeps the invariants of 10_state.md R47 -/

namespace Sys2Proof.Machine

/-- Settles O46: the reset table has no bytes, no length and no error. -/
theorem resetMeetsTheInvariants : Obligations.ResetMeetsTheInvariants where
  count_le_length := Nat.le_refl 0
  idle_is_clean _ := ⟨rfl, rfl, rfl⟩
  finalized_is_complete h := nomatch h
  no_error_iff_no_code := ⟨fun _ => rfl, fun _ => rfl⟩
  code_in_range h := nomatch h
  phase_is_legal := by decide
  length_bounded := by decide
  tail_is_zero k hk _ := zeroBlock_get k hk
  absorbing_has_bytes h := nomatch h

/-- The three codes of STATE are legal (R35). -/
theorem phaseCode_ne_three (p : Phase) : phaseCode p ≠ 3#2 := by
  cases p <;> decide

/-- Appending bytes keeps the buffer zero from the fill level on (R31). -/
theorem foldl_append_tail_zero (bs : List Byte) (r : Regs)
    (h : ∀ (k : Nat) (hk : k < 64), fill r ≤ k → r.buf[k] = 0x00#8) :
    ∀ (k : Nat) (hk : k < 64), fill (bs.foldl (fun r b => append b r) r) ≤ k →
      (bs.foldl (fun r b => append b r) r).buf[k] = 0x00#8 := by
  induction bs generalizing r with
  | nil => exact h
  | cons b bs ih => exact ih (append b r) (append_tail_zero b r h)

/-- The count after bytes that fit: the declared length keeps it from wrapping. -/
theorem absorb_bytecnt_toNat {bs : List Byte} {r : Regs} (h : r.bytecnt.toNat + bs.length ≤ r.mlen.toNat) :
    (absorb bs r).bytecnt.toNat = r.bytecnt.toNat + bs.length := by
  have := r.mlen.isLt
  rw [absorb_bytecnt, BitVec.toNat_add, BitVec.toNat_ofNat]
  omega

namespace Regs.Inv

variable {r : Regs}

/-- Recording an error keeps the invariants: the code it records is 1 to 5 (60_exceptions.md R211). -/
theorem recordError (h : r.Inv) (c : ErrCause) : (recordError c r).Inv := by
  cases herr : r.err with
  | true => rwa [recordError_of_err c herr]
  | false =>
    rw [recordError_of_ok c herr]
    exact { h with
      no_error_iff_no_code := iff_of_false Bool.noConfusion (errCauseCode_ne_zero c)
      code_in_range := fun _ => errCauseCode_range c }

/-- So does an accepted length write, since in Idle nothing has been counted. -/
theorem withMlen (h : r.Inv) (hacc : mlenAdmit r = .accept) (m : Length) : ({ r with mlen := m } : Regs).Inv := by
  obtain ⟨-, hidle⟩ := mlenAdmit_eq_accept.mp hacc
  obtain ⟨hcount, -, -⟩ := h.idle_is_clean hidle
  exact { h with
    count_le_length := hcount ▸ Nat.zero_le _
    finalized_is_complete := fun hfin => nomatch hidle.symm.trans hfin
    length_bounded := m.isLt }

/-- So does an accepted push of at least one byte. -/
theorem absorb (h : r.Inv) {bs : List Byte} (hne : bs ≠ []) (hacc : pushAdmit bs.length r = .accept) :
    (absorb bs r).Inv := by
  obtain ⟨-, -, hfits⟩ := pushAdmit_eq_accept.mp hacc
  have hcount := absorb_bytecnt_toNat hfits
  have hpos := List.length_pos_of_ne_nil hne
  exact {
    count_le_length := by rwa [hcount, absorb_mlen]
    idle_is_clean := fun hidle => nomatch hidle
    finalized_is_complete := fun hfin => nomatch hfin
    no_error_iff_no_code := by rw [absorb_err, absorb_errcode]; exact h.no_error_iff_no_code
    code_in_range := by rw [absorb_err, absorb_errcode]; exact h.code_in_range
    phase_is_legal := phaseCode_ne_three _
    length_bounded := BitVec.isLt _
    tail_is_zero := foldl_append_tail_zero bs r h.tail_is_zero
    absorbing_has_bytes := fun _ => by omega }

/-- So does an accepted CMD.FINAL, which has counted the declared bytes and clears the buffer. -/
theorem finalize (h : r.Inv) (hacc : finalAdmit r = .accept) : (finalize r).Inv := by
  obtain ⟨-, -, hcomplete⟩ := finalAdmit_eq_accept.mp hacc
  have hcount : (Machine.finalize r).bytecnt.toNat = (Machine.finalize r).mlen.toNat := by
    rw [finalize_bytecnt, pad_bytecnt, finalize_mlen, pad_mlen, hcomplete]
  have hbuf : (Machine.finalize r).buf = zeroBlock := by rw [finalize_buf, pad_buf]
  exact {
    count_le_length := hcount.le
    idle_is_clean := fun hidle => nomatch hidle
    finalized_is_complete := fun _ => ⟨hcount, hbuf⟩
    no_error_iff_no_code := by
      rw [finalize_err, pad_err, finalize_errcode, pad_errcode]; exact h.no_error_iff_no_code
    code_in_range := by rw [finalize_err, pad_err, finalize_errcode, pad_errcode]; exact h.code_in_range
    phase_is_legal := phaseCode_ne_three _
    length_bounded := BitVec.isLt _
    tail_is_zero := fun k hk _ => by simp only [hbuf, zeroBlock_get]
    absorbing_has_bytes := fun habs => nomatch habs }

end Regs.Inv

/-- A push carries at least one byte. -/
theorem pushedBytes_ne_nil {i : Instr} (hi : isPush i = true) : pushedBytes i ≠ [] := by
  cases i
  case pushb d => exact List.cons_ne_nil _ _
  case pushw d => exact List.cons_ne_nil _ _
  all_goals exact Bool.noConfusion hi

/-- Every instruction keeps the invariants. -/
theorem Regs.Inv.regsAfter {r : Regs} (h : r.Inv) (i : Instr) : (regsAfter i r).Inv := by
  rcases regsAfter_cases i r with e | ⟨c, e⟩ | ⟨-, e⟩ | ⟨-, hacc, e⟩ | ⟨hi, hacc, e⟩ | ⟨hacc, m, e⟩ <;> rw [e]
  · exact h
  · exact h.recordError c
  · exact resetMeetsTheInvariants
  · exact h.finalize hacc
  · exact h.absorb (pushedBytes_ne_nil hi) hacc
  · exact h.withMlen hacc m

/-- Settles O45: a step waits, resets or executes an instruction. -/
theorem stepKeepsTheInvariants : Obligations.StepKeepsTheInvariants := by
  intro s t hinv hstep
  rcases step_cases hstep with ⟨-, rfl⟩ | ⟨x, rest, hp, -⟩ | ⟨r, rest, i, -, -, hexec⟩
  · exact hinv
  · rw [regs_of_powerOnReset hp hstep]
    exact resetMeetsTheInvariants
  · rw [(exec_inv hexec).1]
    exact hinv.regsAfter i

/-! ### Every step keeps the registers standing for a message -/

/-- Settles O50: nothing counted, the accumulator at the IV, the buffer empty. -/
theorem resetStandsForTheEmptyMessage : Obligations.ResetStandsForTheEmptyMessage :=
  ⟨rfl, Nat.zero_le _, rfl, rfl, rfl⟩

/-- What a push does to the registers. -/
theorem regsAfter_of_isPush {i : Instr} (hi : isPush i = true) (r : Regs) :
    regsAfter i r = push (pushedBytes i) r := by
  cases i
  case pushb d => rfl
  case pushw d => rfl
  all_goals exact Bool.noConfusion hi

/-- An accepted push absorbs its bytes. -/
theorem push_of_accept {bs : List Byte} {r : Regs} (hacc : pushAdmit bs.length r = .accept) :
    push bs r = absorb bs r := by
  rw [push, hacc, admitted_accept]

namespace Represents

variable {m : List Byte} {r : Regs}

/-- Recording an error keeps the message. -/
theorem recordError (h : Represents m r) (c : ErrCause) : Represents m (recordError c r) := by
  unfold Machine.recordError
  split
  · exact h
  · exact h

/-- So does an accepted length write, since in Idle the message is empty. -/
theorem withMlen (h : Represents m r) (hacc : mlenAdmit r = .accept) (l : Length) :
    Represents m { r with mlen := l } := by
  obtain ⟨-, hidle⟩ := mlenAdmit_eq_accept.mp hacc
  obtain ⟨hcount, -, hmatch⟩ := h
  simp only [hidle] at hmatch
  refine ⟨hcount, ?_, ?_⟩
  · rw [hmatch.1]
    exact Nat.zero_le _
  · simp only [hidle]
    exact hmatch

/-- An accepted push of at least one byte extends the message by its bytes (40_framer.md R104; 10_state.md R31). -/
theorem absorb (h : Represents m r) {bs : List Byte} (hne : bs ≠ []) (hacc : pushAdmit bs.length r = .accept) :
    Represents (m ++ bs) (absorb bs r) := by
  obtain ⟨-, hfin, hfits⟩ := pushAdmit_eq_accept.mp hacc
  have hlt := r.mlen.isLt
  have hcount := (h.absorbed hfin).count
  obtain ⟨hcount', hhash, htail⟩ := (h.absorbed hfin).foldl_append bs (by omega)
  refine ⟨hcount', ?_, fun hnil => hne (List.append_eq_nil_iff.mp hnil).2, hhash, htail⟩
  rwa [List.length_append, absorb_mlen, ← hcount]

/-- An accepted CMD.FINAL keeps the message, now hashed whole (43_control.md R184). -/
theorem finalize (h : Represents m r) (hacc : finalAdmit r = .accept) : Represents m (finalize r) := by
  obtain ⟨-, hfin, hcomplete⟩ := finalAdmit_eq_accept.mp hacc
  have hlen : m.length = r.mlen.toNat := (h.absorbed hfin).count.symm.trans hcomplete
  refine ⟨?_, ?_, ?_, (h.absorbed hfin).pad_h hlen.symm, pad_buf r⟩
  · rw [finalize_bytecnt, pad_bytecnt, hcomplete, hlen]
  · rw [finalize_mlen, pad_mlen, hlen]
  · rw [finalize_mlen, pad_mlen, hlen]

/-- Every instruction keeps the message, resets to the empty one or extends it by the bytes it pushes. -/
theorem regsAfter (h : Represents m r) (i : Instr) :
    Represents m (regsAfter i r) ∨ regsAfter i r = Regs.reset ∨
      (isPush i = true ∧ Represents (m ++ pushedBytes i) (regsAfter i r)) := by
  rcases regsAfter_cases i r with e | ⟨c, e⟩ | ⟨-, e⟩ | ⟨-, hacc, e⟩ | ⟨hi, hacc, e⟩ | ⟨hacc, l, e⟩ <;> rw [e]
  · exact .inl h
  · exact .inl (h.recordError c)
  · exact .inr (.inl rfl)
  · exact .inl (h.finalize hacc)
  · exact .inr (.inr ⟨hi, h.absorb (pushedBytes_ne_nil hi) hacc⟩)
  · exact .inl (h.withMlen hacc l)

end Represents

/-- Settles O49: a step waits, resets or executes an instruction. -/
theorem stepKeepsTheMessage : Obligations.StepKeepsTheMessage := by
  intro s t m hm hstep
  rcases step_cases hstep with ⟨-, rfl⟩ | ⟨x, rest, hp, -⟩ | ⟨r, rest, i, hp, hdecode, hexec⟩
  · exact .inl hm
  · rw [regs_of_powerOnReset hp hstep]
    exact .inr (.inl ⟨resetStandsForTheEmptyMessage, rfl⟩)
  · rw [(exec_inv hexec).1]
    rcases hm.regsAfter i with hkeep | hreset | ⟨hi, hext⟩
    · exact .inl hkeep
    · rw [hreset]
      exact .inr (.inl ⟨resetStandsForTheEmptyMessage, rfl⟩)
    · exact .inr (.inr ⟨r, rest, i, hp, hdecode, hi, hext⟩)

/-- Settles O47: an accepted push absorbs its bytes. -/
theorem acceptedPushExtendsTheMessage : Obligations.AcceptedPushExtendsTheMessage := by
  intro i s m hi hm hacc
  obtain ⟨hok, -, -⟩ := pushAdmit_eq_accept.mp hacc
  refine ⟨_, exec_eq i s, ?_⟩
  rw [regsAfter_of_isPush hi, push_of_accept hacc]
  exact ⟨hm.absorb (pushedBytes_ne_nil hi) hacc, absorb_phase _ _, absorb_mlen _ _, (absorb_err _ _).trans hok⟩

/-- What an accepted CMD.FINAL does to the registers. -/
theorem regsAfter_cmdFinal_of_accept {r : Regs} (hacc : finalAdmit r = .accept) :
    regsAfter .cmdFinal r = finalize r := by
  rw [regsAfter, hacc, admitted_accept]

/-- Registers in Finalized that stand for a message hold its hash. -/
theorem Represents.h_of_finalized {m : List Byte} {r : Regs} (h : Represents m r) (hfin : r.phase = .finalized) :
    r.h = sha256 m := by
  obtain ⟨-, -, hmatch⟩ := h
  rw [hfin] at hmatch
  exact hmatch.2.1

/-- Settles O48: an accepted CMD.FINAL pads and hashes. -/
theorem finalHashesTheMessage : Obligations.FinalHashesTheMessage := by
  intro s m hm hacc
  obtain ⟨hok, -, -⟩ := finalAdmit_eq_accept.mp hacc
  have hfinal := hm.finalize hacc
  refine ⟨_, exec_eq .cmdFinal s, ?_⟩
  rw [regsAfter_cmdFinal_of_accept hacc]
  exact ⟨rfl, hfinal.h_of_finalized rfl, hfinal, by rw [finalize_err, pad_err, hok]⟩

end Sys2Proof.Machine

/-! ### A word push is four byte pushes, and a schedule word (40_framer.md R114; 20_memory.md R56; 41_schedule.md) -/

namespace Sys2Proof.Machine

/-- `Append` leaves the phase alone, so a whole list of bytes may be appended before or after the phase is set. -/
theorem foldl_append_withPhase (bs : List Byte) (r : Regs) (p : Phase) :
    bs.foldl (fun r b => append b r) { r with phase := p } =
      { bs.foldl (fun r b => append b r) r with phase := p } := by
  induction bs generalizing r with
  | nil => rfl
  | cons b bs ih => rw [List.foldl_cons, List.foldl_cons, append_withPhase, ih]

/-- Absorbing two lists of bytes in turn is absorbing them as one. -/
theorem absorb_absorb (bs cs : List Byte) (r : Regs) : absorb cs (absorb bs r) = absorb (bs ++ cs) r := by
  unfold absorb
  rw [foldl_append_withPhase, List.foldl_append]

/-- Two pushes that are accepted as one are one push of all the bytes (R114). -/
theorem push_push {bs cs : List Byte} {r : Regs} (hacc : pushAdmit (bs ++ cs).length r = .accept) :
    push cs (push bs r) = push (bs ++ cs) r := by
  obtain ⟨hok, hfin, hfits⟩ := pushAdmit_eq_accept.mp hacc
  rw [List.length_append] at hfits
  have hbs : pushAdmit bs.length r = .accept := pushAdmit_eq_accept.mpr ⟨hok, hfin, by omega⟩
  have hcs : pushAdmit cs.length (absorb bs r) = .accept := by
    refine pushAdmit_eq_accept.mpr ⟨(absorb_err bs r).trans hok, Phase.noConfusion, ?_⟩
    rw [absorb_bytecnt_toNat (by omega), absorb_mlen]
    omega
  rw [push_of_accept hacc, push_of_accept hbs, push_of_accept hcs, absorb_absorb]

/-- The low byte of a word shifted right is the byte at the shift. -/
theorem pushBytesB_shift (d : Word) (n : Nat) : pushBytesB (d >>> n) = [d.extractLsb' n 8] := by
  simp only [pushBytesB_eq, extractLsb'_eq_ofNat, BitVec.toNat_ushiftRight, Nat.shiftRight_eq_div_pow]

/-- Settles O29: the bytes of the four PUSHBs are those of the word, one after the other. -/
theorem wordPushEqualsFourBytePushes : Obligations.WordPushEqualsFourBytePushes := by
  intro s d hacc
  obtain ⟨hok, hfin, hfits⟩ := pushAdmit_eq_accept.mp hacc
  have hpart (n : Nat) (hn : n ≤ 4) : pushAdmit n s.regs = .accept := pushAdmit_eq_accept.mpr ⟨hok, hfin, by omega⟩
  have hpushes : push (pushBytesB d) (push (pushBytesB (d >>> 8)) (push (pushBytesB (d >>> 16))
      (push (pushBytesB (d >>> 24)) s.regs))) = push (pushBytesW d) s.regs := by
    rw [pushBytesB_shift, pushBytesB_shift, pushBytesB_shift, push_push (r := s.regs),
      push_push (r := s.regs), push_push (r := s.regs)]
    · rfl
    all_goals
      refine hpart _ ?_
      exact of_decide_eq_true rfl
  simp only [execAll, exec_eq]
  refine congrArg (fun r => Host.Outcome.next (State.mk r .writeDone s.pending)) ?_
  exact hpushes.symm

/-- Bytes that leave room in the block are only stored (40_framer.md R104). -/
theorem foldl_append_eq_foldl_storeByte (bs : List Byte) (r : Regs) (h : fill r + bs.length < 64) :
    bs.foldl (fun r b => append b r) r = bs.foldl (fun r b => storeByte b r) r := by
  induction bs generalizing r with
  | nil => rfl
  | cons b bs ih =>
    rw [List.length_cons] at h
    rw [List.foldl_cons, List.foldl_cons, append_of_room b (by omega)]
    refine ih (storeByte b r) ?_
    rw [fill_storeByte]
    omega

/-- Bytes that reach the end of the block with the last of them at most are all stored, and the block is compressed if
it is full (R104). -/
theorem foldl_append_snoc (bs : List Byte) (b : Byte) (r : Regs) (h : fill r + bs.length < 64) :
    (bs ++ [b]).foldl (fun r b => append b r) r =
      if fill r + bs.length < 63 then (bs ++ [b]).foldl (fun r b => storeByte b r) r
      else compressBuffer ((bs ++ [b]).foldl (fun r b => storeByte b r) r) := by
  have hfill := (foldl_append_of_room bs r h).2
  have hstore := foldl_append_eq_foldl_storeByte bs r h
  rw [hstore] at hfill
  rw [List.foldl_append, List.foldl_append, hstore]
  split
  · exact append_of_room b (by omega)
  · exact append_of_last b (by omega)

/-- The registers with the four bytes of a word stored at the fill level, none of them compressed yet. -/
def storeWord (d : Word) (r : Regs) : Regs :=
  (pushBytesW d).foldl (fun r b => storeByte b r) r

@[simp] theorem storeWord_h (d : Word) (r : Regs) : (storeWord d r).h = r.h := by
  simp only [storeWord, pushBytesW, bytesBe32, List.foldl_cons, List.foldl_nil, storeByte_h]

/-- The buffer with a word stored at an aligned fill level: the word's bytes from there on, the others as before. -/
theorem storeWord_buf_get (d : Word) {r : Regs} {p : Nat} (hfill : fill r = 4 * p) (k : Nat) (hk : k < 64) :
    (storeWord d r).buf[k] =
      if 4 * p + 3 = k then d.extractLsb' 0 8 else if 4 * p + 2 = k then d.extractLsb' 8 8
      else if 4 * p + 1 = k then d.extractLsb' 16 8 else if 4 * p = k then d.extractLsb' 24 8 else r.buf[k] := by
  have hlt := fill_lt r
  have hnext (q : Nat) (hq : q < 4) : (4 * p + q) % 64 = 4 * p + q := Nat.mod_eq_of_lt (by omega)
  simp only [storeWord, pushBytesW, bytesBe32, List.foldl_cons, List.foldl_nil, storeByte_buf, fill_storeByte, hfill,
    Vector.getElem_set, hnext 1 (by decide), hnext 2 (by decide), hnext 3 (by decide)]

/-- A word stored at an aligned fill level is the schedule word there (20_memory.md R56, 41_schedule.md R132). -/
theorem expand_storeWord (d : Word) {r : Regs} {p : Nat} (hp : p < 16) (hfill : fill r = 4 * p) :
    (expand (storeWord d r).buf)[p] = d := by
  rw [expand_first _ p hp]
  simp [storeWord_buf_get d hfill, be32_of_bytes]

/-- Appending a word at an aligned fill level stores it, and compresses the block if its last byte fills it (R104). -/
theorem foldl_append_aligned (d : Word) {r : Regs} {p : Nat} (hfill : fill r = 4 * p) :
    (pushBytesW d).foldl (fun r b => append b r) r =
      if p < 15 then storeWord d r else compressBuffer (storeWord d r) := by
  have hlt := fill_lt r
  have hsnoc := foldl_append_snoc [d.extractLsb' 24 8, d.extractLsb' 16 8, d.extractLsb' 8 8] (d.extractLsb' 0 8) r
    (by simp only [List.length_cons, List.length_nil]; omega)
  have hroom : fill r + 3 < 63 ↔ p < 15 := by omega
  exact hsnoc.trans (if_congr hroom rfl rfl)

/-- Settles O30: the word stored, and the block compressed when `p = 15`. -/
theorem alignedWordPushIsScheduleWord : Obligations.AlignedWordPushIsScheduleWord := by
  intro s t d p hp hacc hfill hexec
  have hregs : t.regs = absorb (pushBytesW d) s.regs :=
    (exec_inv hexec).1.trans (push_of_accept (bs := pushBytesW d) hacc)
  have hword := expand_storeWord d hp hfill
  rw [absorb, foldl_append_aligned d hfill] at hregs
  refine ⟨fun hlt => ?_, fun hlast => ⟨(storeWord d s.regs).buf, ?_, hword, fun k hk => ?_⟩⟩
  · rw [if_pos hlt] at hregs
    rw [hregs]
    exact ⟨hword, storeWord_h d s.regs⟩
  · rw [if_neg (by omega)] at hregs
    rw [hregs]
    exact (compressBuffer_h _).trans (congrArg (compress · _) (storeWord_h d s.regs))
  · rw [storeWord_buf_get d hfill, if_neg (by omega), if_neg (by omega), if_neg (by omega), if_neg (by omega)]

end Sys2Proof.Machine

/-! ### The host protocol (70_reset_and_hazards.md R244) -/

namespace Sys2Proof.Machine

/-- What instructions executed one after the other do to the registers. -/
def regsAfterAll (is : List Instr) (r : Regs) : Regs :=
  is.foldl (fun r i => regsAfter i r) r

theorem regsAfterAll_cons (i : Instr) (is : List Instr) (r : Regs) :
    regsAfterAll (i :: is) r = regsAfterAll is (regsAfter i r) := rfl

theorem regsAfterAll_append (is js : List Instr) (r : Regs) :
    regsAfterAll (is ++ js) r = regsAfterAll js (regsAfterAll is r) :=
  List.foldl_append

/-- Issued instructions run to completion one a step, and the port's later events stay (20_memory.md R60). -/
theorem run_issue (is : List Instr) (s : State) (hwf : ∀ i ∈ is, i.wf = true) :
    ∃ t, core.run is.length (s.issue is) = .next t ∧ t.regs = regsAfterAll is s.regs ∧ t.pending = s.pending := by
  induction is generalizing s with
  | nil => exact ⟨s, rfl, rfl, rfl⟩
  | cons i is ih =>
    obtain ⟨hi, his⟩ := List.forall_mem_cons.mp hwf
    have hstep : core.step (s.issue (i :: is)) =
        .next (State.issue is ⟨regsAfter i s.regs, respAfter i s.regs, s.pending⟩) :=
      (issuedInstructionRuns (s.issue is) i hi).trans (exec_eq i _)
    rw [List.length_cons, run_succ_of_next core _ hstep, regsAfterAll_cons]
    exact ih _ his

/-- A push is well formed. -/
theorem wf_of_isPush {i : Instr} (hi : isPush i = true) : i.wf = true := by
  cases i
  case pushb d => rfl
  case pushw d => rfl
  all_goals exact Bool.noConfusion hi

/-- Registers that stand for `m`, may take more bytes and have recorded no error. -/
structure Receiving (m : List Byte) (r : Regs) : Prop where
  represents : Represents m r
  no_error : r.err = false
  not_finalized : r.phase ≠ .finalized

/-- Pushes within the declared length leave the core receiving, with the message extended by their bytes. -/
theorem Receiving.pushes {m : List Byte} {r : Regs} (h : Receiving m r) {pushes : List Instr}
    (hpush : ∀ i ∈ pushes, isPush i = true)
    (hfits : (m ++ pushes.flatMap pushedBytes).length ≤ r.mlen.toNat) :
    Receiving (m ++ pushes.flatMap pushedBytes) (regsAfterAll pushes r) ∧
      (regsAfterAll pushes r).mlen = r.mlen := by
  induction pushes generalizing m r with
  | nil =>
    rw [List.flatMap_nil, List.append_nil]
    exact ⟨h, rfl⟩
  | cons i is ih =>
    obtain ⟨hi, his⟩ := List.forall_mem_cons.mp hpush
    rw [List.flatMap_cons, ← List.append_assoc] at hfits ⊢
    have hcount := (h.represents.absorbed h.not_finalized).count
    have hacc : pushAdmit (pushedBytes i).length r = .accept := by
      refine pushAdmit_eq_accept.mpr ⟨h.no_error, h.not_finalized, ?_⟩
      simp only [List.length_append] at hfits
      omega
    rw [regsAfterAll_cons, regsAfter_of_isPush hi, push_of_accept hacc]
    have hnext : Receiving (m ++ pushedBytes i) (absorb (pushedBytes i) r) :=
      ⟨h.represents.absorb (pushedBytes_ne_nil hi) hacc, (absorb_err _ _).trans h.no_error, Phase.noConfusion⟩
    obtain ⟨hrec, hmlen⟩ := ih hnext his (by rwa [absorb_mlen])
    exact ⟨hrec, hmlen.trans (absorb_mlen _ _)⟩

/-- CMD.RESET and the two length writes leave a core that has received nothing, with the length whose halves they
carry (40_framer.md R101, R102). -/
theorem receiving_nil {lo hi : Word} {n : Nat} (r : Regs) (hn : n < 2 ^ 61) (hlo : lo.toNat = n % 2 ^ 32)
    (hhi : hi.toNat = n / 2 ^ 32) :
    Receiving [] (regsAfterAll [.cmdReset, .wrMlenLo lo, .wrMlenHi hi] r) ∧
      (regsAfterAll [.cmdReset, .wrMlenLo lo, .wrMlenHi hi] r).mlen.toNat = n := by
  have hregs : regsAfterAll [.cmdReset, .wrMlenLo lo, .wrMlenHi hi] r =
      { Regs.reset with mlen := withMlenHi (withMlenLo 0#61 lo) hi } := rfl
  rw [hregs]
  refine ⟨⟨⟨rfl, Nat.zero_le _, rfl, rfl, rfl⟩, rfl, Phase.noConfusion⟩, ?_⟩
  rw [withMlenHi_toNat, withMlenLo_toNat, hlo, hhi, BitVec.toNat_ofNat]
  omega

/-- A receiving core that has the declared bytes accepts CMD.FINAL (43_control.md R184). -/
theorem Receiving.finalAdmit_eq_accept {m : List Byte} {r : Regs} (h : Receiving m r)
    (hlen : m.length = r.mlen.toNat) : finalAdmit r = .accept :=
  Machine.finalAdmit_eq_accept.mpr
    ⟨h.no_error, h.not_finalized, (h.represents.absorbed h.not_finalized).count.trans hlen⟩

/-- Settles O51: RESET and the length writes leave a receiving core with the length of `m`, the pushes bring `m`, and
FINAL hashes it. -/
theorem hostProtocolYieldsTheDigest : Obligations.HostProtocolYieldsTheDigest := by
  intro s m pushes lo hi hlen hlo hhi hpush hbytes
  have hwf : ∀ i : Instr, i ∈ [Instr.cmdReset, Instr.wrMlenLo lo, Instr.wrMlenHi hi] ++ pushes ++ [Instr.cmdFinal] →
      i.wf = true := by
    simp only [List.mem_append, List.mem_cons, List.not_mem_nil, or_false]
    rintro i (((rfl | rfl | rfl) | hi) | rfl)
    case inl.inr => exact wf_of_isPush (hpush i hi)
    all_goals rfl
  obtain ⟨t, hrun, hregs, hpending⟩ := run_issue _ s hwf
  rw [regsAfterAll_append, regsAfterAll_append] at hregs
  obtain ⟨hnil, hdeclared⟩ := receiving_nil s.regs hlen hlo hhi
  obtain ⟨hrec, hmlen⟩ := hnil.pushes hpush (by rw [List.nil_append, hbytes, hdeclared])
  rw [List.nil_append, hbytes] at hrec
  have hacc := hrec.finalAdmit_eq_accept (by rw [hmlen, hdeclared])
  rw [regsAfterAll_cons, regsAfter_cmdFinal_of_accept hacc] at hregs
  refine ⟨t, ?_, ?_, ?_, ?_, hpending⟩
  · refine Eq.trans (congrArg (core.run · _) ?_) hrun
    simp only [List.length_append, List.length_cons, List.length_nil]
    omega
  · rw [hregs]
    exact finalize_phase _
  · rw [hregs]
    exact (finalize_err _).trans ((pad_err _).trans hrec.no_error)
  · rw [hregs]
    exact (hrec.represents.finalize hacc).h_of_finalized rfl

end Sys2Proof.Machine

/-! ### The padded message (40_framer.md R111, R112) and `ROTR` (00_scope.md R9) -/

namespace Sys2Proof.Machine

@[simp] theorem fullBlocks_length (bs : List Byte) : (fullBlocks bs).length = bs.length / 64 := by
  rw [fullBlocks, List.length_map, List.length_range]

/-- Settles O53: the lengths of the padding. -/
theorem blockCount : Obligations.BlockCount := by
  intro m
  rw [fullBlocks_length, fullBlocks_length, paddedMessage_length, zeroCount]
  refine ⟨by omega, ?_, rfl⟩
  split <;> omega

/-- Settles O54: `k` is `zeroCount`. -/
theorem paddedMessageShape : Obligations.PaddedMessageShape := by
  intro m
  have hmod : (m.length + zeroCount m.length + 9) % 64 = 0 := by unfold zeroCount; omega
  refine ⟨?_, zeroCount m.length, by unfold zeroCount; omega, hmod, ?_⟩
  · rw [paddedMessage_length, hmod]
  · rw [paddedMessage_eq, List.append_assoc, List.append_assoc]

/-- Settles O55: a bit that the right shift takes past the end comes from the left shift. -/
theorem rotateIsCyclic : Obligations.RotateIsCyclic := by
  intro x n j hn hn' hj
  rw [rotr, BitVec.getLsbD_or, BitVec.getLsbD_ushiftRight, BitVec.getLsbD_shiftLeft]
  rcases Nat.lt_or_ge (j + n) 32 with hin | hout
  · rw [Nat.mod_eq_of_lt hin, Nat.add_comm n j, decide_eq_true (show j < 32 - n by omega)]
    simp
  · have hwrap : (j + n) % 32 = j - (32 - n) := by omega
    rw [hwrap, BitVec.getLsbD_of_ge x (n + j) (by omega), decide_eq_true hj,
      decide_eq_false (show ¬ j < 32 - n by omega)]
    simp

end Sys2Proof.Machine
